-- ==== Sys2Proof/Word.lean ====
section
/-! DEFINITION. The byte, the only word the hardware has (spec 00_scope.md R5, R7). -/

namespace Sys2Proof

/-- A byte: an unsigned 8-bit value, 0..255 (R7, R13). Registers, memory cells, pc and sp all have this width. -/
abbrev Byte := BitVec 8

end Sys2Proof
end

