-- ==== Sys2Proof/Config.lean ====
section
/-! DEFINITION. The named parameters of the machine (spec 00_scope.md R6) and the names they are indexed by.
Their default VALUES stand in Decode.lean (`OpcodeMap.ls8`) and Machine/Params.lean (`Config.default`). -/

namespace Sys2Proof

/-- The thirteen operations of the ISA, without operands: what `Decode(IR)` of R58 returns (R2). -/
inductive Op where
  | hlt | ldi | prn | mul | add | cmp | push | pop | call | ret | jmp | jeq | jne
  deriving DecidableEq, Repr

/-- The four instruction formats of R52. -/
inductive Format where
  | f0    -- opcode
  | f1r   -- opcode, register
  | f2ri  -- opcode, register, immediate
  | f2rr  -- opcode, register, register
  deriving DecidableEq, Repr

/-- `OPCODE_MAP` (R6, R56): the opcode byte of each instruction. -/
structure OpcodeMap where
  hlt  : Byte
  ldi  : Byte
  prn  : Byte
  mul  : Byte
  add  : Byte
  cmp  : Byte
  push : Byte
  pop  : Byte
  call : Byte
  ret  : Byte
  jmp  : Byte
  jeq  : Byte
  jne  : Byte
  deriving DecidableEq, Repr

/-- `UNSET_FLAG_POLICY` (R6, R25): what JEQ and JNE do while fl = UNSET. -/
inductive UnsetFlagPolicy where
  /-- `NOT_EQUAL`: UNSET is simply not EQUAL. -/
  | notEqual
  /-- `FAULT`: JEQ and JNE raise UndefinedFlag. -/
  | fault
  deriving DecidableEq, Repr

/-- The six named parameters of R6. An exit status is a plain number: the spec gives it no width
(DESIGN CHOICE, log entry 5). -/
structure Config where
  opcodes         : OpcodeMap
  pcReset         : Byte
  spReset         : Byte
  unsetFlagPolicy : UnsetFlagPolicy
  haltExitStatus  : Nat
  faultExitStatus : Nat
  deriving DecidableEq, Repr

end Sys2Proof
end

