-- ==== Sys2Proof/Syntax.lean ====
section
/-! DEFINITION. The instructions, one constructor per row of spec/opcode_table.json (spec 30_encoding.md R52). -/

namespace Sys2Proof

/-- An instruction with its operand bytes. A register operand is the WHOLE byte the image holds: bytes 8..255 are
encodable and raise OutOfBounds(REGISTER, b) when the instruction executes (R53, R60), so they stay in the syntax. -/
inductive Instr where
  | hlt                      -- halt, R69
  | ldi (rA imm : Byte)      -- load immediate, R70
  | prn (rA : Byte)          -- print register, R71
  | mul (rA rB : Byte)       -- multiply, R73
  | add (rA rB : Byte)       -- add, R74
  | cmp (rA rB : Byte)       -- compare, R75
  | push (rA : Byte)         -- push register, R78
  | pop (rA : Byte)          -- pop into register, R79
  | call (rA : Byte)         -- call subroutine, R81
  | ret                      -- return, R82
  | jmp (rA : Byte)          -- jump, R83
  | jeq (rA : Byte)          -- jump if equal, R84
  | jne (rA : Byte)          -- jump if not equal, R85
  deriving DecidableEq, Repr

end Sys2Proof
end

