-- ==== Sys2Proof/Decode.lean ====
section
/-! DEFINITION. The opcode map, the decoder (total, rejecting by name) and the encoder (spec 30_encoding.md R50 to R61). -/

namespace Sys2Proof

/-! ### The tables -/

/-- The default `OPCODE_MAP`, the table of R56 (PRESUMED by the spec, its decision D1; log entry 2). -/
def OpcodeMap.ls8 : OpcodeMap where
  hlt  := 0x01
  ldi  := 0x82
  prn  := 0x47
  mul  := 0xA2
  add  := 0xA0
  cmp  := 0xA7
  push := 0x45
  pop  := 0x46
  call := 0x50
  ret  := 0x11
  jmp  := 0x54
  jeq  := 0x55
  jne  := 0x56

/-- `OPCODE_MAP[op]`. -/
def OpcodeMap.byte (m : OpcodeMap) : Op → Byte
  | .hlt => m.hlt
  | .ldi => m.ldi
  | .prn => m.prn
  | .mul => m.mul
  | .add => m.add
  | .cmp => m.cmp
  | .push => m.push
  | .pop => m.pop
  | .call => m.call
  | .ret => m.ret
  | .jmp => m.jmp
  | .jeq => m.jeq
  | .jne => m.jne

/-- The thirteen operations in the order of the opcode table. -/
def Op.all : List Op :=
  [.hlt, .ldi, .prn, .mul, .add, .cmp, .push, .pop, .call, .ret, .jmp, .jeq, .jne]

/-- The format of each operation (R52, R56). -/
def Op.format : Op → Format
  | .hlt | .ret => .f0
  | .prn | .push | .pop | .call | .jmp | .jeq | .jne => .f1r
  | .ldi => .f2ri
  | .mul | .add | .cmp => .f2rr

/-- The number of operand bytes of a format (R50, R52). -/
def Format.operandCount : Format → Nat
  | .f0 => 0
  | .f1r => 1
  | .f2ri => 2
  | .f2rr => 2

/-- The length in bytes: 1 + number of operands (R50). -/
def Format.length (f : Format) : Nat := 1 + f.operandCount

/-! ### The decoder -/

/-- Why bytes are no instruction. -/
inductive DecodeError where
  /-- The opcode byte is not in `OPCODE_MAP` (R59). -/
  | unknownInstruction (ir : Byte)
  /-- Fewer than the three bytes every step fetches (R63) were given to `decodeBytes`. -/
  | truncated
  deriving DecidableEq, Repr

/-- `Decode(IR)`: compare the whole byte with each entry of the map (R58). -/
def decodeOpcode (m : OpcodeMap) (ir : Byte) : Option Op :=
  Op.all.find? (fun op => m.byte op == ir)

/-- Attach the operand bytes the format uses; the others are dropped (R52, R55). -/
def Op.assemble (op : Op) (opA opB : Byte) : Instr :=
  match op with
  | .hlt => .hlt
  | .ldi => .ldi opA opB
  | .prn => .prn opA
  | .mul => .mul opA opB
  | .add => .add opA opB
  | .cmp => .cmp opA opB
  | .push => .push opA
  | .pop => .pop opA
  | .call => .call opA
  | .ret => .ret
  | .jmp => .jmp opA
  | .jeq => .jeq opA
  | .jne => .jne opA

/-- The instruction in the three latched bytes (R62). -/
def decode (m : OpcodeMap) (ir opA opB : Byte) : Except DecodeError Instr :=
  match decodeOpcode m ir with
  | none => .error (.unknownInstruction ir)
  | some op => .ok (op.assemble opA opB)

/-- The instruction at the head of a byte sequence. As in a step's eager fetch, three bytes must be there (R63). -/
def decodeBytes (m : OpcodeMap) : List Byte → Except DecodeError Instr
  | ir :: opA :: opB :: _ => decode m ir opA opB
  | _ => .error .truncated

/-! ### The encoder -/

/-- The operation of an instruction. -/
def Instr.op : Instr → Op
  | .hlt => .hlt
  | .ldi _ _ => .ldi
  | .prn _ => .prn
  | .mul _ _ => .mul
  | .add _ _ => .add
  | .cmp _ _ => .cmp
  | .push _ => .push
  | .pop _ => .pop
  | .call _ => .call
  | .ret => .ret
  | .jmp _ => .jmp
  | .jeq _ => .jeq
  | .jne _ => .jne

/-- The operand bytes of an instruction in byte order (R52). -/
def Instr.operands : Instr → List Byte
  | .hlt => []
  | .ldi rA imm => [rA, imm]
  | .prn rA => [rA]
  | .mul rA rB => [rA, rB]
  | .add rA rB => [rA, rB]
  | .cmp rA rB => [rA, rB]
  | .push rA => [rA]
  | .pop rA => [rA]
  | .call rA => [rA]
  | .ret => []
  | .jmp rA => [rA]
  | .jeq rA => [rA]
  | .jne rA => [rA]

/-- The bytes of an instruction in address order: opcode, then operands (R50). -/
def encode (m : OpcodeMap) (i : Instr) : List Byte := m.byte i.op :: i.operands

/-! ### The host's numbering of an instruction's bits -/

/-- The three bytes that lie at an instruction whose `nbits` bits are `w`, first byte in bits 7..0; zeros above. -/
def tableWordBytes (nbits w : Nat) : List Byte :=
  [BitVec.ofNat 8 (w % 2 ^ nbits), BitVec.ofNat 8 (w % 2 ^ nbits / 2 ^ 8), BitVec.ofNat 8 (w % 2 ^ nbits / 2 ^ 16)]

/-- What the decoder reads from an instruction of the opcode table, under the default `OPCODE_MAP`. -/
def decodeTableWord (nbits w : Nat) : Option Instr :=
  (decodeBytes OpcodeMap.ls8 (tableWordBytes nbits w)).toOption

end Sys2Proof
end

