-- ==== Sys2Proof/Machine/Params.lean ====
section
/-! DEFINITION. The default values of the named parameters (spec 00_scope.md R6). -/

namespace Sys2Proof

/-- The defaults of R6: opcode map of R56 (D1, log entry 2), `PC_RESET` 0x00 (D2) and `SP_RESET` 0xF4 (D3, log entry 3),
`UNSET_FLAG_POLICY` NOT_EQUAL (D4, log entry 4), both exit statuses 1 (D12, D13, log entry 5). -/
def Config.default : Config where
  opcodes := OpcodeMap.ls8
  pcReset := 0x00
  spReset := 0xF4
  unsetFlagPolicy := .notEqual
  haltExitStatus := 1
  faultExitStatus := 1

end Sys2Proof
end

