-- ==== Sys2Proof/Machine/State.lean ====
section
/-! DEFINITION. The state of the machine (spec 10_state.md R12), its fault records, and the state after reset. -/

namespace Sys2Proof.Machine

/-- The flag register's four values (R23). Its bits are not architectural (R26). -/
inductive Flag where
  | unset | equal | greater | less
  deriving DecidableEq, Repr

/-- What an out-of-range index was an index into (R89). -/
inductive Space where
  | memory | register
  deriving DecidableEq, Repr

/-- The three fault causes (R87). -/
inductive FaultCause where
  | unknownInstruction | outOfBounds | undefinedFlag
  deriving DecidableEq, Repr

/-- A cause together with its info (R91): what a `raise` of the spec's pseudocode carries. -/
inductive Trap where
  /-- UnknownInstruction with the offending byte IR (R88). -/
  | unknownInstruction (ir : Byte)
  /-- OutOfBounds with the space and the offending integer (R89). -/
  | outOfBounds (space : Space) (index : Int)
  /-- UndefinedFlag, only under `UNSET_FLAG_POLICY` = FAULT (R25). -/
  | undefinedFlag
  deriving DecidableEq, Repr

/-- The fault record f = (cause, pc, info) of R91; `trap` holds cause and info. -/
structure FaultRecord where
  trap : Trap
  pc   : Byte
  deriving DecidableEq, Repr

/-- The run status (R28). -/
inductive Status where
  | running
  | halted
  | faulted (f : FaultRecord)
  deriving DecidableEq, Repr

/-- The bytes a step latches (R30). They exist within one step only and are no part of `State`. -/
structure Latches where
  ir  : Byte
  opA : Byte
  opB : Byte
  deriving DecidableEq, Repr

/-- Memory (R33) as the cells that do not hold the reset byte, addresses strictly rising (`Memory.wf`). -/
abbrev Memory := List Host.Cell

/-- The architectural state of R12, and the parameters `cfg` of R6, which no step changes (DESIGN CHOICE, log entry 1). -/
structure State where
  /-- The general registers R0..R7 (R13, R14). -/
  x      : Vector Byte 8
  /-- The unified memory (R33). -/
  mem    : Memory
  /-- The program counter (R17, R18). -/
  pc     : Byte
  /-- The stack pointer, no general register (R14, R20). -/
  sp     : Byte
  /-- The flag register (R23). -/
  fl     : Flag
  /-- The run status (R28). -/
  status : Status
  /-- The output sequence, oldest byte first (R29). -/
  out    : List Byte
  /-- The named parameters (R6). -/
  cfg    : Config
  deriving DecidableEq, Repr

/-- Why no step exists. The spec's own faults (R87) are NOT here: each is taken, as a next state with status FAULTED (R93). -/
inductive Fault where
  /-- Raised by `step` on a HALTED machine: HALTED is terminal, no step exists from it (R28, R62). Safe. -/
  | noStepHalted
  /-- Raised by `step` on a FAULTED machine: FAULTED is terminal, no step exists from it (R28, R62, R94). Safe. -/
  | noStepFaulted (f : FaultRecord)
  deriving DecidableEq, Repr

/-- Why an instruction has no meaning. -/
inductive Refusal where
  /-- An arm of `exec` not modelled yet. No arm raises it: every instruction has its meaning. Safe. -/
  | notModelled (mnemonic : String)
  deriving DecidableEq, Repr

/-- What a meaning answers. -/
abbrev Result := Host.Outcome State Fault Refusal

/-- Reset under the parameters `c` (R105); status is RUNNING when execution begins (R28, R107; DEDUCED, log entry 6).
No memory cell is listed: every cell is 0 (R42). -/
def State.resetWith (c : Config) : State where
  x      := Vector.replicate 8 0
  mem    := []
  pc     := c.pcReset
  sp     := c.spReset
  fl     := .unset
  status := .running
  out    := []
  cfg    := c

/-- The machine right after reset, under the default parameters (R105). -/
def State.reset : State := State.resetWith Config.default

end Sys2Proof.Machine
end

