-- ==== Sys2Proof/Machine/Memory.lean ====
section
/-! DEFINITION. Memory as data: reading and writing one cell (spec 20_memory.md R33, R44), the canonical form. -/

namespace Sys2Proof.Machine

/-- What an unlisted address reads as: 0, every cell's value at reset (R42). -/
def Memory.unlisted : Byte := 0x00

/-- The byte in cell `a`. -/
def Memory.readByte : Memory → Nat → Byte
  | [], _ => Memory.unlisted
  | c :: m, a => if c.1 = a then c.2 else Memory.readByte m a

/-- Put a cell before the first cell of a higher address. -/
def Memory.insertCell (a : Nat) (v : Byte) : Memory → Memory
  | [] => [(a, v)]
  | c :: m => if a < c.1 then (a, v) :: c :: m else c :: Memory.insertCell a v m

/-- Memory with `v` in cell `a`; a cell that holds the unlisted byte is not listed. -/
def Memory.writeByte (m : Memory) (a : Nat) (v : Byte) : Memory :=
  if v = Memory.unlisted then m.filter (fun c => c.1 != a)
  else Memory.insertCell a v (m.filter (fun c => c.1 != a))

/-- Lay bytes at `a`, `a + 1`, ...; what would lie above address 255 does not exist and is dropped (R33). -/
def Memory.place (m : Memory) (a : Nat) : List Byte → Memory
  | [] => m
  | b :: bs => if a < 256 then Memory.place (m.writeByte a b) (a + 1) bs else m

/-- The canonical form: addresses exist (R33) and rise strictly, and no listed cell holds the unlisted byte. -/
abbrev Memory.wf (m : Memory) : Prop :=
  (∀ c ∈ m, c.1 < 256 ∧ c.2 ≠ Memory.unlisted) ∧ m.Pairwise (fun c d => c.1 < d.1)

end Sys2Proof.Machine
end

