-- ==== Sys2Proof/Machine/Ops.lean ====
section
/-! DEFINITION. The named operations over registers, memory, pc, sp, out and status, and taking a fault. -/

namespace Sys2Proof.Machine

/-! ### Updates of one piece of state -/

/-- `x[r] <- v` (R8, R13). -/
def State.setReg (s : State) (r : Fin 8) (v : Byte) : State := { s with x := s.x.set r.val v r.isLt }

/-- `x[r]` (R8, R13). -/
def State.reg (s : State) (r : Fin 8) : Byte := s.x[r.val]

/-- `pc <- t` (R18). -/
def State.setPc (s : State) (t : Byte) : State := { s with pc := t }

/-- `sp <- a` (R20). -/
def State.setSp (s : State) (a : Byte) : State := { s with sp := a }

/-- `fl <- f` (R23). -/
def State.setFl (s : State) (f : Flag) : State := { s with fl := f }

/-- `status <- st` (R28). -/
def State.setStatus (s : State) (st : Status) : State := { s with status := st }

/-- `mem[a] <- v` for an address that exists (R33). -/
def State.storeByte (s : State) (a : Byte) (v : Byte) : State := { s with mem := s.mem.writeByte a.toNat v }

/-- `Output(v)`: append v to the end of out (R29). -/
def State.output (s : State) (v : Byte) : State := { s with out := s.out ++ [v] }

/-! ### Checked addresses and memory access -/

/-- An address computed as an integer, checked before it is used; nothing wraps (R10, R34, R35). -/
def checkAddr (a : Int) : Except Trap Byte :=
  if 0 ≤ a ∧ a ≤ 255 then .ok (BitVec.ofInt 8 a) else .error (.outOfBounds .memory a)

/-- `MemRead(a, 1)` (R34). -/
def State.memRead (s : State) (a : Int) : Except Trap Byte := do
  let k ← checkAddr a
  pure (s.mem.readByte k.toNat)

/-- `MemWrite(a, 1, v)` (R35). -/
def State.memWrite (s : State) (a : Int) (v : Byte) : Except Trap State := do
  let k ← checkAddr a
  pure (s.storeByte k v)

/-- `Next(w)`: the sequential next pc of an instruction of length w (R64). -/
def State.seqNext (s : State) (w : Nat) : Except Trap Byte := checkAddr ((s.pc.toNat : Int) + w)

/-- `sp - 1`, where a push stores; below 0 it is a stack overflow (R20, R21, R77). -/
def State.pushSlot (s : State) : Except Trap Byte := checkAddr ((s.sp.toNat : Int) - 1)

/-- `sp + 1`, what a pop leaves in sp; above 255 it is a stack underflow (R20, R21, R77). -/
def State.popSlot (s : State) : Except Trap Byte := checkAddr ((s.sp.toNat : Int) + 1)

/-! ### Faults -/

/-- The cause of a trap (R87). -/
def Trap.cause : Trap → FaultCause
  | .unknownInstruction _ => .unknownInstruction
  | .outOfBounds _ _ => .outOfBounds
  | .undefinedFlag => .undefinedFlag

/-- The code of a cause (R87). -/
def FaultCause.code : FaultCause → Nat
  | .unknownInstruction => 1
  | .outOfBounds => 2
  | .undefinedFlag => 3

/-- TAKING A FAULT (R93): status becomes FAULTED(f), where f records the trap and the pc of the faulting instruction (R91);
nothing else changes. No state is saved elsewhere and no handler is entered; the ISA has no return from it (R94). -/
def State.takeFault (s : State) (t : Trap) : State := s.setStatus (.faulted { trap := t, pc := s.pc })

/-- The end of an instruction's pseudocode, started in `s`: either every effect happens, or a raise discards them all and the
fault is taken from the state at the start of the step (R9, R62, R93). -/
def State.conclude (s : State) (r : Except Trap State) : Result :=
  match r with
  | .ok t => .next t
  | .error t => .next (s.takeFault t)

end Sys2Proof.Machine
end

