-- ==== Sys2Proof/Machine/Operands.lean ====
section
/-! DEFINITION. The operand forms (spec 30_encoding.md R53, R54). -/

namespace Sys2Proof.Machine

/-- `RegIdx(b)`: a register operand is the whole byte, never masked; 8..255 raises OutOfBounds(REGISTER, b) (R53). -/
def regIdx (b : Byte) : Except Trap (Fin 8) :=
  if h : b.toNat < 8 then .ok ⟨b.toNat, h⟩ else .error (.outOfBounds .register b.toNat)

/-- An immediate operand stands as it is: no extension, scaling or shift (R54). -/
def immediate (b : Byte) : Byte := b

end Sys2Proof.Machine
end

