-- ==== Sys2Proof/Machine/Flags.lean ====
section
/-! DEFINITION. The flag register: the comparison that writes it and the test that reads it (spec 10_state.md R23 to R25). -/

namespace Sys2Proof.Machine

/-- The flag CMP writes for x[rA] relative to x[rB], compared as unsigned values (R75). -/
def compareFlag (a b : Byte) : Flag :=
  if a.toNat = b.toNat then .equal
  else if a.toNat > b.toNat then .greater
  else .less

/-- The test `fl == EQUAL` of JEQ and JNE: UNSET is not EQUAL, unless the policy is FAULT and the test raises (R25). -/
def State.flagIsEqual (s : State) : Except Trap Bool :=
  if s.fl = .unset ∧ s.cfg.unsetFlagPolicy = .fault then .error .undefinedFlag
  else .ok (decide (s.fl = .equal))

end Sys2Proof.Machine
end

