-- ==== Sys2Proof/Machine/Alu.lean ====
section
/-! DEFINITION. The ALU: MUL, ADD and CMP (spec 42_alu.md). -/

namespace Sys2Proof.Machine

/-- The exact product, kept modulo 256 (R72). -/
def mulByte (a b : Byte) : Byte := BitVec.ofNat 8 (a.toNat * b.toNat % 256)

/-- The exact sum, kept modulo 256 (R72). -/
def addByte (a b : Byte) : Byte := BitVec.ofNat 8 ((a.toNat + b.toNat) % 256)

/-- The common shape of MUL and ADD: check both registers and the next pc, then x[rA] <- f x[rA] x[rB]; fl is
unchanged (R72 to R74). -/
def aluWrite (f : Byte → Byte → Byte) (rA rB : Byte) (s : State) : Result := s.conclude do
  let a ← regIdx rA
  let b ← regIdx rB
  let n ← s.seqNext 3
  pure ((s.setReg a (f (s.reg a) (s.reg b))).setPc n)

/-- MUL (R73). -/
def execMul (rA rB : Byte) (s : State) : Result := aluWrite mulByte rA rB s

/-- ADD (R74). -/
def execAdd (rA rB : Byte) (s : State) : Result := aluWrite addByte rA rB s

/-- CMP: fl <- the outcome of the unsigned comparison; no register is written (R75). -/
def execCmp (rA rB : Byte) (s : State) : Result := s.conclude do
  let a ← regIdx rA
  let b ← regIdx rB
  let n ← s.seqNext 3
  pure ((s.setFl (compareFlag (s.reg a) (s.reg b))).setPc n)

end Sys2Proof.Machine
end

