-- ==== Sys2Proof/Machine/Basic.lean ====
section
/-! DEFINITION. HLT, LDI and PRN (spec 41_halt_load_print.md). -/

namespace Sys2Proof.Machine

/-- HLT: status <- HALTED; pc keeps the HLT's own address (R69). -/
def execHlt (s : State) : Result := .next (s.setStatus .halted)

/-- LDI: x[rA] <- imm (R70). -/
def execLdi (rA imm : Byte) (s : State) : Result := s.conclude do
  let r ← regIdx rA
  let n ← s.seqNext 3
  pure ((s.setReg r (immediate imm)).setPc n)

/-- PRN: append x[rA] to the output (R71). -/
def execPrn (rA : Byte) (s : State) : Result := s.conclude do
  let r ← regIdx rA
  let n ← s.seqNext 2
  pure ((s.output (s.reg r)).setPc n)

end Sys2Proof.Machine
end

