-- ==== Sys2Proof/Machine/Control.lean ====
section
/-! DEFINITION. CALL, RET, JMP, JEQ and JNE (spec 44_control.md). Every target is a byte, so it is legal; the transfer takes
effect at once (R80). -/

namespace Sys2Proof.Machine

/-- CALL: mem[sp-1] <- pc+2, sp <- sp-1, pc <- x[rA] (R81). -/
def execCall (rA : Byte) (s : State) : Result := s.conclude do
  let r ← regIdx rA
  let a ← s.pushSlot
  let ret ← s.seqNext 2
  let t ← s.memWrite a.toNat ret
  pure ((t.setSp a).setPc (s.reg r))

/-- RET: pc <- mem[sp], sp <- sp+1 (R82). -/
def execRet (s : State) : Result := s.conclude do
  let t ← s.memRead s.sp.toNat
  let a ← s.popSlot
  pure ((s.setSp a).setPc t)

/-- JMP: pc <- x[rA] (R83). -/
def execJmp (rA : Byte) (s : State) : Result := s.conclude do
  let r ← regIdx rA
  pure (s.setPc (s.reg r))

/-- The common end of JEQ and JNE: jump to x[r], or fall through to pc+2 (R84, R85). -/
def State.branch (s : State) (r : Fin 8) (taken : Bool) : Except Trap State :=
  if taken then .ok (s.setPc (s.reg r))
  else do
    let n ← s.seqNext 2
    pure (s.setPc n)

/-- JEQ: jump if fl is EQUAL; the register operand is checked even when the jump is not taken (R84). -/
def execJeq (rA : Byte) (s : State) : Result := s.conclude do
  let r ← regIdx rA
  let eq ← s.flagIsEqual
  s.branch r eq

/-- JNE: jump unless fl is EQUAL; the register operand is checked even when the jump is not taken (R85). -/
def execJne (rA : Byte) (s : State) : Result := s.conclude do
  let r ← regIdx rA
  let eq ← s.flagIsEqual
  s.branch r (!eq)

end Sys2Proof.Machine
end

