-- ==== Sys2Proof/Machine/Stack.lean ====
section
/-! DEFINITION. PUSH and POP (spec 43_stack.md). -/

namespace Sys2Proof.Machine

/-- PUSH: mem[sp-1] <- x[rA], sp <- sp-1 (R78). -/
def execPush (rA : Byte) (s : State) : Result := s.conclude do
  let r ← regIdx rA
  let a ← s.pushSlot
  let n ← s.seqNext 2
  let t ← s.memWrite a.toNat (s.reg r)
  pure ((t.setSp a).setPc n)

/-- POP: x[rA] <- mem[sp], sp <- sp+1 (R79). -/
def execPop (rA : Byte) (s : State) : Result := s.conclude do
  let r ← regIdx rA
  let v ← s.memRead s.sp.toNat
  let a ← s.popSlot
  let n ← s.seqNext 2
  pure (((s.setReg r v).setSp a).setPc n)

end Sys2Proof.Machine
end

