-- ==== Sys2Proof/Machine/Fetch.lean ====
section
/-! DEFINITION. The fetch of a step and its decode (spec 30_encoding.md R62, R63). -/

namespace Sys2Proof.Machine

/-- The three reads of every step, at pc, pc+1 and pc+2, before decoding (R30, R63). -/
def State.fetch (s : State) : Except Trap Latches := do
  let ir ← s.memRead (s.pc.toNat : Int)
  let opA ← s.memRead ((s.pc.toNat : Int) + 1)
  let opB ← s.memRead ((s.pc.toNat : Int) + 2)
  pure { ir := ir, opA := opA, opB := opB }

/-- Fetch, then decode; an opcode that matches no entry raises UnknownInstruction with IR (R59, R62). -/
def State.fetchDecode (s : State) : Except Trap Instr := do
  let l ← s.fetch
  match decode s.cfg.opcodes l.ir l.opA l.opB with
  | .ok i => .ok i
  | .error _ => .error (.unknownInstruction l.ir)

end Sys2Proof.Machine
end

