-- ==== Sys2Proof/Machine/Step.lean ====
section
/-! DEFINITION. One step of the machine (spec 30_encoding.md R62). -/

namespace Sys2Proof.Machine

/-- `Step`, enabled only while status = RUNNING. From HALTED and FAULTED no step exists (R28, R62). -/
def step (s : State) : Host.Outcome State Fault Refusal :=
  match s.status with
  | .halted => .fault .noStepHalted
  | .faulted f => .fault (.noStepFaulted f)
  | .running =>
    match s.fetchDecode with
    | .error t => .next (s.takeFault t)
    | .ok i => exec i s

/-- `s` with the instruction whose `nbits` bits are `w` stored at pc, where `step` fetches (log entry 11). -/
def State.withFetchWord (s : State) (nbits w : Nat) : State :=
  { s with mem := s.mem.place s.pc.toNat (tableWordBytes nbits w) }

end Sys2Proof.Machine
end

