-- ==== Sys2Proof/Machine/HostView.lean ====
section
/-! DEFINITION. The core's boundary with the host: loading, launching, the output text and the exit status
(spec 60_exceptions.md R97, R98, R101; 70_reset_and_hazards.md R105 to R107). -/

namespace Sys2Proof.Machine

/-- The loader's writes: one byte an address, upward from `a`, through the write operation of R35 (R43, R106). -/
def loadFrom (a : Nat) : List Byte → State → Except Trap State
  | [], s => .ok s
  | b :: bs, s => do
    let t ← s.memWrite a b
    loadFrom (a + 1) bs t

/-- Load an image from address 0 (R68, R106). -/
def loadImage (image : List Byte) (s : State) : Except Trap State := loadFrom 0 image s

/-- Reset, then load: the state in which execution begins; an image of more than 256 bytes never starts (R105 to R107). -/
def launch (c : Config) (image : List Byte) : Except Trap State := loadImage image (State.resetWith c)

/-- The exit status the host sees once the run has ended (R98, R99). -/
def State.exitStatus (s : State) : Option Nat :=
  match s.status with
  | .running => none
  | .halted => some s.cfg.haltExitStatus
  | .faulted _ => some s.cfg.faultExitStatus

/-- One output byte as the host renders it: decimal, on a line of its own (R101). -/
def outLine (v : Byte) : String := toString v.toNat ++ "\n"

/-- The output as text (R29, R101). -/
def State.outText (s : State) : String := String.join (s.out.map outLine)

end Sys2Proof.Machine
end

