-- ==== Sys2Proof/Machine/ImageText.lean ====
section
/-! DEFINITION. The text image format of spec 30_encoding.md R68. The loader that reads it lies outside the core; only the bytes
it gives matter (log entry 9). -/

namespace Sys2Proof.Machine

/-- The bits of a binary string, most significant first, as a number; none if a character is no binary digit. -/
def binaryValue : List Char → Nat → Option Nat
  | [], n => some n
  | c :: cs, n =>
    if c = '0' then binaryValue cs (2 * n)
    else if c = '1' then binaryValue cs (2 * n + 1)
    else none

/-- A byte line: exactly 8 binary digits (R68, D25). -/
def binaryByte (cs : List Char) : Option Byte :=
  if cs.length = 8 then (binaryValue cs 0).map (BitVec.ofNat 8) else none

/-- What is left of a line when everything from `#` on and the surrounding white space are removed (R68). -/
def lineText (cs : List Char) : List Char :=
  (((cs.takeWhile (fun c => c != '#')).dropWhile Char.isWhitespace).reverse.dropWhile Char.isWhitespace).reverse

/-- The lines of a text. -/
def textLines : List Char → List (List Char)
  | [] => [[]]
  | c :: cs =>
    if c = '\n' then [] :: textLines cs
    else match textLines cs with
      | [] => [[c]]
      | l :: ls => (c :: l) :: ls

/-- The bytes of a list of lines: a blank or comment line gives none, a byte line gives one, any other line spoils the image
(DESIGN CHOICE, log entry 9). -/
def imageOfLines : List (List Char) → Option (List Byte)
  | [] => some []
  | l :: ls =>
    if lineText l = [] then imageOfLines ls
    else match binaryByte (lineText l), imageOfLines ls with
      | some b, some bs => some (b :: bs)
      | _, _ => none

/-- The image in a text (R68). -/
def parseImage (text : String) : Option (List Byte) := imageOfLines (textLines text.toList)

end Sys2Proof.Machine
end

