-- ==== Sys2Proof/WellFormed.lean ====
section
/-! DEFINITION. Well-formedness of instructions and of the parameters. -/

namespace Sys2Proof

/-- The register operands of an instruction, in operand order A, B (R52, R53). LDI's second byte is an immediate (R54). -/
def Instr.registerOperands : Instr → List Byte
  | .hlt => []
  | .ldi rA _ => [rA]
  | .prn rA => [rA]
  | .mul rA rB => [rA, rB]
  | .add rA rB => [rA, rB]
  | .cmp rA rB => [rA, rB]
  | .push rA => [rA]
  | .pop rA => [rA]
  | .call rA => [rA]
  | .ret => []
  | .jmp rA => [rA]
  | .jeq rA => [rA]
  | .jne rA => [rA]

/-- An instruction the notation of R66 can write with R0..R7: every register operand names one of the eight registers.
The decoder accepts the others as well, since they are no illegal encodings (R60); they raise when they execute (R53). -/
def Instr.wellFormed (i : Instr) : Bool := i.registerOperands.all (fun b => decide (b.toNat < 8))

/-- What R56 demands of any `OPCODE_MAP`: thirteen distinct bytes. -/
def OpcodeMap.distinct (m : OpcodeMap) : Bool := decide ((Op.all.map m.byte).Nodup)

/-- What R51 and R56 demand of any `OPCODE_MAP`: bits [7:6] of each byte are the operand count. -/
def OpcodeMap.countBits (m : OpcodeMap) : Bool :=
  Op.all.all (fun op => (m.byte op).toNat / 64 == op.format.operandCount)

/-- A legal `OPCODE_MAP` (R56). -/
def OpcodeMap.wellFormed (m : OpcodeMap) : Bool := m.distinct && m.countBits

/-- Legal parameters: a legal opcode map, and a fault exit status that is not zero (R6, R98). -/
def Config.wellFormed (c : Config) : Bool := c.opcodes.wellFormed && c.faultExitStatus != 0

end Sys2Proof
end

