-- ==== Sys2Proof/Safety.lean ====
section
/-! DEFINITION. What claims are stated in: which fault a step takes, the invariant, and a safe run. -/

namespace Sys2Proof.Machine

/-- The opcode byte at pc. -/
def State.opcodeAtPc (s : State) : Byte := s.mem.readByte s.pc.toNat

/-- The operation at pc, if the byte there is an opcode (R58). -/
def State.opAtPc (s : State) : Option Op := decodeOpcode s.cfg.opcodes s.opcodeAtPc

/-- The instruction in the three bytes at pc; used where pc is at most 253, so that all three exist (R63). -/
def State.instrAtPc (s : State) : Except DecodeError Instr :=
  decode s.cfg.opcodes s.opcodeAtPc (s.mem.readByte (s.pc.toNat + 1)) (s.mem.readByte (s.pc.toNat + 2))

/-- What a fetch at `p` latches once `v` has been written at `a`: each of its three reads gives `v` where it meets `a`, and the old
byte elsewhere (R30, R47). -/
def State.latchesAfterWrite (s : State) (a v p : Byte) : Latches :=
  let seen (b : Nat) : Byte := if b = a.toNat then v else s.mem.readByte b
  { ir := seen p.toNat, opA := seen (p.toNat + 1), opB := seen (p.toNat + 2) }

/-- The traps an instruction raises in `s`, by the priority of R92 from its third entry on, written from the table of R89:
register operands, UndefinedFlag, stack bound, next-pc bound. -/
def State.executionTrap (s : State) (i : Instr) : Option Trap :=
  match i.registerOperands.find? (fun b => decide (8 ≤ b.toNat)) with
  | some b => some (.outOfBounds .register b.toNat)
  | none =>
    if i.op ∈ [Op.jeq, Op.jne] ∧ s.fl = .unset ∧ s.cfg.unsetFlagPolicy = .fault then some .undefinedFlag
    else if i.op ∈ [Op.push, Op.call] ∧ s.sp = 0 then some (.outOfBounds .memory (-1))
    else if i.op ∈ [Op.pop, Op.ret] ∧ s.sp = 255 then some (.outOfBounds .memory 256)
    else if i.op ∈ [Op.ldi, Op.mul, Op.add, Op.cmp] ∧ s.pc = 253 then some (.outOfBounds .memory 256)
    else none

/-- The trap the next step of a RUNNING machine takes, by the whole priority list of R92; none if the step completes. -/
def State.firstTrap (s : State) : Option Trap :=
  if 254 ≤ s.pc.toNat then some (.outOfBounds .memory 256)
  else match s.instrAtPc with
    | .error _ => some (.unknownInstruction s.opcodeAtPc)
    | .ok i => s.executionTrap i

/-- What a stopped machine still shows: HALTED stands on a HLT that could be fetched (R69), and FAULTED holds the record of
exactly the fault that the unchanged state gives rise to (R91, R93). -/
def State.stopExplained (s : State) : Prop :=
  match s.status with
  | .running => True
  | .halted => s.pc.toNat ≤ 253 ∧ s.opAtPc = some .hlt
  | .faulted f => f.pc = s.pc ∧ s.firstTrap = some f.trap

/-- The invariant: memory in canonical form, legal parameters, and an explained stop. -/
structure State.Inv (s : State) : Prop where
  memory : s.mem.wf
  params : s.cfg.wellFormed = true
  stop   : s.stopExplained

/-- Status is FAULTED. -/
def State.isFaulted (s : State) : Bool :=
  match s.status with
  | .running => false
  | .halted => false
  | .faulted _ => true

/-- The state after `k` steps, if `k` steps exist. -/
def stepMany : Nat → State → Option State
  | 0, s => some s
  | k + 1, s =>
    match step s with
    | .next t => stepMany k t
    | .fault _ => none
    | .refused _ => none

/-- A safe run: no state of the first `n` steps from `s` is FAULTED (a run that halts on the way is safe). -/
def SafeFor (n : Nat) (s : State) : Prop := ∀ k ≤ n, ∀ t : State, stepMany k s = some t → t.isFaulted = false

end Sys2Proof.Machine
end

