-- ==== Sys2Proof/Certificates/Slice0/Obligations.lean ====
section
/-! DEFINITION. The statements for the provers. Register numbers are given as operand bytes `rA` with `rA.toNat < 8`, because the
operand is the whole byte (R53); where a statement is about one instruction it also says what the bytes 8..255 do. A statement
about `exec` asks for the pc bound that every step's fetch has established before it (R63). -/

open Sys2Proof Sys2Proof.Machine

/-! ### Reset, load, host -/

/-- R16. -/
def Obligations.RegistersAreZeroAtReset : Prop :=
  ∀ (c : Config) (r : Fin 8), (State.resetWith c).x[r.val] = 0 ∧ State.reset.x[r.val] = 0

/-- The rest of the reset table of 70_reset_and_hazards.md section 1. pc and sp are the parameters PC_RESET and SP_RESET, whose
defaults are the spec's decisions D2 and D3 (log entry 3); status RUNNING is read from R28 and R107 (log entry 6). That reset sets
State's field cfg to the parameters is no row of that table: it is the model's choice to hold them in State (log entry 1). -/
def Obligations.ResetLeavesTheTabulatedState : Prop :=
  (∀ c : Config, (∀ a : Nat, (State.resetWith c).mem.readByte a = 0) ∧ (State.resetWith c).pc = c.pcReset ∧
    (State.resetWith c).sp = c.spReset ∧ (State.resetWith c).fl = .unset ∧ (State.resetWith c).status = .running ∧
    (State.resetWith c).out = [] ∧ (State.resetWith c).cfg = c) ∧
  State.reset.pc = 0x00 ∧ State.reset.sp = 0xF4 ∧ State.reset.cfg = Config.default

/-- The loader (70_reset_and_hazards.md, R106 with decisions D24 and D25): image byte i at address i, 0 elsewhere, nothing else
changed; a longer image fails OutOfBounds(MEMORY, 256) and never starts. That the loaded memory is in canonical form is the model's
choice (log entry 7). -/
def Obligations.LaunchLoadsImageFromAddressZero : Prop :=
  ∀ (c : Config) (image : List Byte),
    (image.length ≤ 256 → ∃ t, launch c image = .ok t ∧ (∀ a < 256, t.mem.readByte a = image.getD a 0) ∧
      t.mem.wf ∧ t = { State.resetWith c with mem := t.mem }) ∧
    (256 < image.length → launch c image = .error (.outOfBounds .memory 256))

/-- The exit status the host sees (60_exceptions.md R98 with decisions D12 and D13; log entry 5). -/
def Obligations.ExitStatusFollowsRunStatus : Prop :=
  (∀ s : State, (s.status = .running → s.exitStatus = none) ∧
    (s.status = .halted → s.exitStatus = some s.cfg.haltExitStatus) ∧
    (∀ f, s.status = .faulted f → s.exitStatus = some s.cfg.faultExitStatus) ∧
    (∀ f, s.status = .faulted f → s.cfg.wellFormed = true → s.exitStatus ≠ some 0)) ∧
  Config.default.haltExitStatus = 1 ∧ Config.default.faultExitStatus = 1

/-- 30_encoding.md R68 (decision D25; what white space is, and that lines end at a line feed, are log entry 9's): lines of 8 binary
digits, most significant first, each with white space before and behind them and with no comment or a comment of its own behind
a `#`, are the image of their bytes in order; a line of white space and comment only, wherever it stands among any lines, adds
nothing; a text's lines are what stands between its line feeds; and the spec's example line is its byte. -/
def Obligations.BinaryLinesGiveTheImageBytes : Prop :=
  (∀ (bs : List Byte) (before behind comment : Nat → List Char),
    (∀ n, ∀ c ∈ before n ++ behind n, c.isWhitespace = true) →
    (∀ n, comment n = [] ∨ ∃ cs, comment n = '#' :: cs) →
    imageOfLines (bs.mapIdx fun n b =>
      before n ++ (List.range 8).map (fun k => if b.getMsbD k then '1' else '0') ++ behind n ++ comment n) = some bs) ∧
  (∀ (white comment : List Char) (pre post : List (List Char)), (∀ c ∈ white, c.isWhitespace = true) →
    comment = [] ∨ (∃ cs, comment = '#' :: cs) →
    imageOfLines (pre ++ (white ++ comment) :: post) = imageOfLines (pre ++ post)) ∧
  (∀ lines : List (List Char), lines ≠ [] → (∀ l ∈ lines, '\n' ∉ l) →
    textLines (List.intercalate ['\n'] lines) = lines) ∧
  parseImage "10000010" = some [0x82]

/-! ### Memory -/

/-- R34. -/
def Obligations.MemReadReturnsTheByteOrRaises : Prop :=
  ∀ (s : State) (a : Int),
    (0 ≤ a → a ≤ 255 → s.memRead a = .ok (s.mem.readByte a.toNat)) ∧
    (a < 0 ∨ 255 < a → s.memRead a = .error (.outOfBounds .memory a))

/-- R35, with the frame of a write: no other cell and no other piece of state changes. -/
def Obligations.MemWriteSetsOneByteOrRaises : Prop :=
  ∀ (s : State) (a : Int) (v : Byte),
    (0 ≤ a → a ≤ 255 → ∃ t, s.memWrite a v = .ok t ∧ t.mem.readByte a.toNat = v ∧
      (∀ b : Nat, b ≠ a.toNat → t.mem.readByte b = s.mem.readByte b) ∧ t = { s with mem := t.mem }) ∧
    (a < 0 ∨ 255 < a → s.memWrite a v = .error (.outOfBounds .memory a))

/-- The model's canonical form (log entry 7): two canonical memories that read alike at every existing address are equal. -/
def Obligations.CanonicalMemoriesThatReadAlikeAreEqual : Prop :=
  ∀ m n : Memory, m.wf → n.wf → (∀ a < 256, m.readByte a = n.readByte a) → m = n

/-! ### Encoding -/

/-- R58, for the legal maps of R56 (on an illegal map with a byte twice the first entry wins: log entry 10). -/
def Obligations.DecodeMatchesTheWholeOpcodeByte : Prop :=
  ∀ (m : OpcodeMap) (ir : Byte), m.wellFormed = true →
    (∀ op : Op, decodeOpcode m ir = some op ↔ m.byte op = ir) ∧
    (decodeOpcode m ir = none ↔ ∀ op : Op, m.byte op ≠ ir)

/-- Decode and encode agree, for every instruction with every operand byte, every legal opcode map, and every byte that follows:
bytes the format does not use have no effect (30_encoding.md sections 1 and 2). -/
def Obligations.DecodeOfEncodeIsTheInstruction : Prop :=
  ∀ (m : OpcodeMap) (i : Instr) (y z : Byte) (rest : List Byte), m.wellFormed = true →
    decodeBytes m (encode m i ++ y :: z :: rest) = .ok i

/-- The other direction: what is decoded is encoded by the bytes it was decoded from, as many as the format's length, with no
premise on the map. -/
def Obligations.EncodeOfDecodeIsTheBytes : Prop :=
  ∀ (m : OpcodeMap) (ir opA opB : Byte) (i : Instr), decode m ir opA opB = .ok i →
    encode m i = [ir, opA, opB].take i.op.format.length

/-- Under a legal map bits [7:6] of a decoded opcode are the operand count, never 0b11, and give the length
(30_encoding.md R50 and R51). -/
def Obligations.HighOpcodeBitsGiveTheOperandCount : Prop :=
  ∀ (m : OpcodeMap) (ir opA opB : Byte) (i : Instr), m.wellFormed = true → decode m ir opA opB = .ok i →
    (ir.extractLsb' 6 2).toNat = i.operands.length ∧ ir.extractLsb' 6 2 ≠ 3 ∧
    (encode m i).length = 1 + (ir.extractLsb' 6 2).toNat

/-- Words of the spec's own examples (41 to 44) decode to what they stand for, and the default map is legal (R56). -/
def Obligations.ExampleWordsDecode : Prop :=
  decodeTableWord 8 0x01 = some .hlt ∧ decodeTableWord 24 0x080082 = some (.ldi 0 8) ∧
  decodeTableWord 24 0x0100A2 = some (.mul 0 1) ∧ decodeTableWord 16 0x0045 = some (.push 0) ∧
  decodeTableWord 16 0x0150 = some (.call 1) ∧ decodeTableWord 8 0x00 = none ∧ decodeTableWord 24 0x000083 = none ∧
  Config.default.wellFormed = true

/-- The host's window on the fetch (log entry 11): under the default map, a step after `withFetchWord` runs the instruction that
the decoder reads from the word. -/
def Obligations.FetchWordIsRunByTheNextStep : Prop :=
  ∀ (s : State) (nbits w : Nat) (i : Instr), s.status = .running → s.pc.toNat ≤ 253 →
    s.cfg.opcodes = OpcodeMap.ls8 → decodeTableWord nbits w = some i →
    step (s.withFetchWord nbits w) = exec i (s.withFetchWord nbits w)

/-! ### The step -/

/-- 30_encoding.md R62: a running machine runs the instruction in the three bytes at pc. -/
def Obligations.StepRunsTheDecodedInstruction : Prop :=
  ∀ (s : State) (i : Instr), s.status = .running → s.pc.toNat ≤ 253 →
    decode s.cfg.opcodes (s.mem.readByte s.pc.toNat) (s.mem.readByte (s.pc.toNat + 1))
      (s.mem.readByte (s.pc.toNat + 2)) = .ok i →
    step s = exec i s

/-- 30_encoding.md R59: an illegal opcode byte raises UnknownInstruction(pc, IR), writes no state but status; under the default map
(PRESUMED by the spec, D1; log entry 2) 243 byte values are illegal, 0x00 among them. -/
def Obligations.IllegalOpcodeRaisesUnknownInstruction : Prop :=
  (∀ s : State, s.status = .running → s.pc.toNat ≤ 253 →
    (∀ op : Op, s.cfg.opcodes.byte op ≠ s.mem.readByte s.pc.toNat) →
    step s = .next { s with status := .faulted ⟨.unknownInstruction (s.mem.readByte s.pc.toNat), s.pc⟩ }) ∧
  ((List.range 256).filter (fun n => (decodeOpcode OpcodeMap.ls8 (BitVec.ofNat 8 n)).isNone)).length = 243 ∧
  decodeOpcode OpcodeMap.ls8 0x00 = none

/-- 30_encoding.md R63 (decision D6): at pc 254 and 255 the eager fetch raises OutOfBounds(MEMORY, 256) whatever the opcode. -/
def Obligations.EagerFetchPastTheTopRaises : Prop :=
  ∀ s : State, s.status = .running → 254 ≤ s.pc.toNat →
    step s = .next { s with status := .faulted ⟨.outOfBounds .memory 256, s.pc⟩ }

/-- 10_state.md R28 and 30_encoding.md R62 (decision D29): a step exists exactly while status is RUNNING, and no step is refused. -/
def Obligations.StepExistsExactlyWhileRunning : Prop :=
  ∀ s : State, ((∃ t, step s = .next t) ↔ s.status = .running) ∧ ∀ r, step s ≠ .refused r

/-- 60_exceptions.md R92 with R89: a running step takes the fault of highest priority if one applies, changing nothing but
status, and otherwise completes without a fault (decisions D5 to D10). -/
def Obligations.StepTakesTheFirstFaultInPriorityOrder : Prop :=
  ∀ s : State, s.status = .running →
    (∀ k, s.firstTrap = some k → step s = .next { s with status := .faulted ⟨k, s.pc⟩ }) ∧
    (s.firstTrap = none → ∃ t, step s = .next t ∧ (t.status = .running ∨ t.status = .halted))

/-- A run is safe exactly when every running state it passes has no fault to take (60_exceptions.md R92, R99; which fault applies
and in which order are the spec's decisions D5 to D10). -/
def Obligations.SafeRunsAreThoseWithoutAFirstFault : Prop :=
  ∀ (n : Nat) (s : State), s.isFaulted = false →
    (SafeFor n s ↔ ∀ k < n, ∀ t : State, stepMany k s = some t → t.status = .running → t.firstTrap = none)

/-- 60_exceptions.md R93 (decision D9): faults are precise and all-or-nothing. -/
def Obligations.FaultChangesNothingButStatus : Prop :=
  ∀ (s t : State) (f : FaultRecord), step s = .next t → t.status = .faulted f →
    f.pc = s.pc ∧ t = { s with status := .faulted f }

/-- 10_state.md R28 (decision D29): RUNNING becomes HALTED only through HLT, and always through it. -/
def Obligations.OnlyHltHalts : Prop :=
  ∀ s t : State, step s = .next t → (t.status = .halted ↔ s.fetchDecode = .ok .hlt)

/-- The invariant holds at reset, under the default and under every legal choice of the parameters (70_reset_and_hazards.md R105;
the canonical form of memory is log entry 7, the parameters in State are log entry 1). -/
def Obligations.ResetMeetsTheInvariant : Prop :=
  State.reset.Inv ∧ ∀ c : Config, c.wellFormed = true → (State.resetWith c).Inv

/-- Every step keeps the invariant: canonical memory (the model's form, log entry 7), legal parameters (held in State by the
model's choice, log entry 1), and a stop that the state explains. That HALTED stands on a fetchable HLT rests on the spec's
decision D12 (41_halt_load_print.md R69: pc stays on the HLT); that FAULTED holds the record of a fault of the unchanged state
rests on D9 (60_exceptions.md R93), and that it is the first one that applies on D10 (R92). -/
def Obligations.StepKeepsTheInvariant : Prop :=
  ∀ s t : State, s.Inv → step s = .next t → t.Inv

/-- The parameters of 00_scope.md R6 are fixed (the model's choice to hold them in State: log entry 1). -/
def Obligations.StepNeverChangesTheParameters : Prop :=
  ∀ s t : State, step s = .next t → t.cfg = s.cfg

/-! ### The instructions: result, frame, completion and faults -/

/-- 41_halt_load_print.md, HLT (decision D12: pc keeps the HLT's own address). -/
def Obligations.HltStopsAndChangesNothingElse : Prop :=
  ∀ s : State, exec .hlt s = .next { s with status := .halted }

/-- R70. -/
def Obligations.LdiLoadsTheImmediate : Prop :=
  ∀ (rA imm : Byte) (s : State),
    (∀ h : rA.toNat < 8, s.pc.toNat ≤ 252 →
      exec (.ldi rA imm) s = .next { s with x := s.x.set rA.toNat imm h, pc := BitVec.ofNat 8 (s.pc.toNat + 3) }) ∧
    (8 ≤ rA.toNat → exec (.ldi rA imm) s = .next { s with status := .faulted ⟨.outOfBounds .register rA.toNat, s.pc⟩ }) ∧
    (rA.toNat < 8 → s.pc = 0xFD →
      exec (.ldi rA imm) s = .next { s with status := .faulted ⟨.outOfBounds .memory 256, s.pc⟩ })

/-- 41_halt_load_print.md, PRN (decision D20: the output never refuses; log entry 8). -/
def Obligations.PrnAppendsTheRegisterToTheOutput : Prop :=
  ∀ (rA : Byte) (s : State),
    (∀ _ : rA.toNat < 8, s.pc.toNat ≤ 253 →
      exec (.prn rA) s = .next { s with out := s.out ++ [s.x[rA.toNat]], pc := BitVec.ofNat 8 (s.pc.toNat + 2) }) ∧
    (8 ≤ rA.toNat → exec (.prn rA) s = .next { s with status := .faulted ⟨.outOfBounds .register rA.toNat, s.pc⟩ })

/-- R73. -/
def Obligations.MulWritesTheLowByteOfTheProduct : Prop :=
  ∀ (rA rB : Byte) (s : State),
    (∀ (hA : rA.toNat < 8) (_ : rB.toNat < 8), s.pc.toNat ≤ 252 →
      ∃ v : Byte, v.toNat = (s.x[rA.toNat].toNat * s.x[rB.toNat].toNat) % 256 ∧
        exec (.mul rA rB) s = .next { s with x := s.x.set rA.toNat v hA, pc := BitVec.ofNat 8 (s.pc.toNat + 3) }) ∧
    (8 ≤ rA.toNat → exec (.mul rA rB) s = .next { s with status := .faulted ⟨.outOfBounds .register rA.toNat, s.pc⟩ }) ∧
    (rA.toNat < 8 → 8 ≤ rB.toNat →
      exec (.mul rA rB) s = .next { s with status := .faulted ⟨.outOfBounds .register rB.toNat, s.pc⟩ }) ∧
    (rA.toNat < 8 → rB.toNat < 8 → s.pc = 0xFD →
      exec (.mul rA rB) s = .next { s with status := .faulted ⟨.outOfBounds .memory 256, s.pc⟩ })

/-- R74. -/
def Obligations.AddWritesTheSumModulo256 : Prop :=
  ∀ (rA rB : Byte) (s : State),
    (∀ (hA : rA.toNat < 8) (_ : rB.toNat < 8), s.pc.toNat ≤ 252 →
      ∃ v : Byte, v.toNat = (s.x[rA.toNat].toNat + s.x[rB.toNat].toNat) % 256 ∧
        exec (.add rA rB) s = .next { s with x := s.x.set rA.toNat v hA, pc := BitVec.ofNat 8 (s.pc.toNat + 3) }) ∧
    (8 ≤ rA.toNat → exec (.add rA rB) s = .next { s with status := .faulted ⟨.outOfBounds .register rA.toNat, s.pc⟩ }) ∧
    (rA.toNat < 8 → 8 ≤ rB.toNat →
      exec (.add rA rB) s = .next { s with status := .faulted ⟨.outOfBounds .register rB.toNat, s.pc⟩ }) ∧
    (rA.toNat < 8 → rB.toNat < 8 → s.pc = 0xFD →
      exec (.add rA rB) s = .next { s with status := .faulted ⟨.outOfBounds .memory 256, s.pc⟩ })

/-- R75. -/
def Obligations.CmpRecordsTheUnsignedOrder : Prop :=
  ∀ (rA rB : Byte) (s : State),
    (∀ (_ : rA.toNat < 8) (_ : rB.toNat < 8), s.pc.toNat ≤ 252 →
      ∃ f : Flag, (f = .equal ↔ s.x[rA.toNat].toNat = s.x[rB.toNat].toNat) ∧
        (f = .greater ↔ s.x[rA.toNat].toNat > s.x[rB.toNat].toNat) ∧
        (f = .less ↔ s.x[rA.toNat].toNat < s.x[rB.toNat].toNat) ∧ f ≠ .unset ∧
        exec (.cmp rA rB) s = .next { s with fl := f, pc := BitVec.ofNat 8 (s.pc.toNat + 3) }) ∧
    (8 ≤ rA.toNat → exec (.cmp rA rB) s = .next { s with status := .faulted ⟨.outOfBounds .register rA.toNat, s.pc⟩ }) ∧
    (rA.toNat < 8 → 8 ≤ rB.toNat →
      exec (.cmp rA rB) s = .next { s with status := .faulted ⟨.outOfBounds .register rB.toNat, s.pc⟩ }) ∧
    (rA.toNat < 8 → rB.toNat < 8 → s.pc = 0xFD →
      exec (.cmp rA rB) s = .next { s with status := .faulted ⟨.outOfBounds .memory 256, s.pc⟩ })

/-- 43_stack.md, PUSH (decision D8 for the bound). The stored address is `pushSlot`, which is sp - 1. -/
def Obligations.PushStoresTheRegisterBelowSp : Prop :=
  ∀ (rA : Byte) (s : State),
    (∀ _ : rA.toNat < 8, 0 < s.sp.toNat → s.pc.toNat ≤ 253 →
      ∃ (a : Byte) (t : State), s.pushSlot = .ok a ∧ a.toNat + 1 = s.sp.toNat ∧ exec (.push rA) s = .next t ∧
        t.mem.readByte a.toNat = s.x[rA.toNat] ∧ (∀ b : Nat, b ≠ a.toNat → t.mem.readByte b = s.mem.readByte b) ∧
        t = { s with mem := t.mem, sp := a, pc := BitVec.ofNat 8 (s.pc.toNat + 2) }) ∧
    (8 ≤ rA.toNat → exec (.push rA) s = .next { s with status := .faulted ⟨.outOfBounds .register rA.toNat, s.pc⟩ }) ∧
    (rA.toNat < 8 → s.sp = 0 →
      exec (.push rA) s = .next { s with status := .faulted ⟨.outOfBounds .memory (-1), s.pc⟩ })

/-- 43_stack.md, POP (decision D8 for the bound). Memory is unchanged: the popped byte stays. -/
def Obligations.PopLoadsTheByteAtSp : Prop :=
  ∀ (rA : Byte) (s : State),
    (∀ h : rA.toNat < 8, s.sp.toNat < 255 → s.pc.toNat ≤ 253 →
      exec (.pop rA) s = .next { s with x := s.x.set rA.toNat (s.mem.readByte s.sp.toNat) h,
                                        sp := BitVec.ofNat 8 (s.sp.toNat + 1), pc := BitVec.ofNat 8 (s.pc.toNat + 2) }) ∧
    (8 ≤ rA.toNat → exec (.pop rA) s = .next { s with status := .faulted ⟨.outOfBounds .register rA.toNat, s.pc⟩ }) ∧
    (rA.toNat < 8 → s.sp = 255 →
      exec (.pop rA) s = .next { s with status := .faulted ⟨.outOfBounds .memory 256, s.pc⟩ })

/-- 44_control.md, CALL (decision D8 for the bound): the return address is the address of the CALL plus 2. -/
def Obligations.CallPushesTheReturnAddressAndJumps : Prop :=
  ∀ (rA : Byte) (s : State),
    (∀ _ : rA.toNat < 8, 0 < s.sp.toNat → s.pc.toNat ≤ 253 →
      ∃ (a : Byte) (t : State), s.pushSlot = .ok a ∧ a.toNat + 1 = s.sp.toNat ∧ exec (.call rA) s = .next t ∧
        (t.mem.readByte a.toNat).toNat = s.pc.toNat + 2 ∧
        (∀ b : Nat, b ≠ a.toNat → t.mem.readByte b = s.mem.readByte b) ∧
        t = { s with mem := t.mem, sp := a, pc := s.x[rA.toNat] }) ∧
    (8 ≤ rA.toNat → exec (.call rA) s = .next { s with status := .faulted ⟨.outOfBounds .register rA.toNat, s.pc⟩ }) ∧
    (rA.toNat < 8 → s.sp = 0 →
      exec (.call rA) s = .next { s with status := .faulted ⟨.outOfBounds .memory (-1), s.pc⟩ })

/-- 44_control.md, RET (decision D8 for the bound). -/
def Obligations.RetPopsTheProgramCounter : Prop :=
  ∀ s : State,
    (s.sp.toNat < 255 →
      exec .ret s = .next { s with pc := s.mem.readByte s.sp.toNat, sp := BitVec.ofNat 8 (s.sp.toNat + 1) }) ∧
    (s.sp = 255 → exec .ret s = .next { s with status := .faulted ⟨.outOfBounds .memory 256, s.pc⟩ })

/-- R83. -/
def Obligations.JmpGoesToTheRegister : Prop :=
  ∀ (rA : Byte) (s : State),
    (∀ _ : rA.toNat < 8, exec (.jmp rA) s = .next { s with pc := s.x[rA.toNat] }) ∧
    (8 ≤ rA.toNat → exec (.jmp rA) s = .next { s with status := .faulted ⟨.outOfBounds .register rA.toNat, s.pc⟩ })

/-- 44_control.md, JEQ (decisions D4 and D5): UNSET is not EQUAL under the policy NOT_EQUAL and raises under FAULT. -/
def Obligations.JeqJumpsExactlyOnEqual : Prop :=
  ∀ (rA : Byte) (s : State),
    (∀ _ : rA.toNat < 8, s.fl = .equal → exec (.jeq rA) s = .next { s with pc := s.x[rA.toNat] }) ∧
    (rA.toNat < 8 → s.pc.toNat ≤ 253 →
      s.fl = .greater ∨ s.fl = .less ∨ (s.fl = .unset ∧ s.cfg.unsetFlagPolicy = .notEqual) →
      exec (.jeq rA) s = .next { s with pc := BitVec.ofNat 8 (s.pc.toNat + 2) }) ∧
    (8 ≤ rA.toNat → exec (.jeq rA) s = .next { s with status := .faulted ⟨.outOfBounds .register rA.toNat, s.pc⟩ }) ∧
    (rA.toNat < 8 → s.fl = .unset → s.cfg.unsetFlagPolicy = .fault →
      exec (.jeq rA) s = .next { s with status := .faulted ⟨.undefinedFlag, s.pc⟩ })

/-- 44_control.md, JNE (decisions D4 and D5): UNSET is not EQUAL under the policy NOT_EQUAL and raises under FAULT. -/
def Obligations.JneJumpsExactlyUnlessEqual : Prop :=
  ∀ (rA : Byte) (s : State),
    (∀ _ : rA.toNat < 8, s.fl = .greater ∨ s.fl = .less ∨ (s.fl = .unset ∧ s.cfg.unsetFlagPolicy = .notEqual) →
      exec (.jne rA) s = .next { s with pc := s.x[rA.toNat] }) ∧
    (rA.toNat < 8 → s.pc.toNat ≤ 253 → s.fl = .equal →
      exec (.jne rA) s = .next { s with pc := BitVec.ofNat 8 (s.pc.toNat + 2) }) ∧
    (8 ≤ rA.toNat → exec (.jne rA) s = .next { s with status := .faulted ⟨.outOfBounds .register rA.toNat, s.pc⟩ }) ∧
    (rA.toNat < 8 → s.fl = .unset → s.cfg.unsetFlagPolicy = .fault →
      exec (.jne rA) s = .next { s with status := .faulted ⟨.undefinedFlag, s.pc⟩ })

/-! ### Rules of the whole machine -/

/-- 30_encoding.md R53 (decision D5): whatever the instruction, the state and the flag, the first register operand byte in
8..255 raises OutOfBounds(REGISTER, b); the byte is never masked. -/
def Obligations.RegisterOperandsAreCheckedFirst : Prop :=
  ∀ (i : Instr) (s : State) (b : Byte), i.registerOperands.find? (fun c => decide (8 ≤ c.toNat)) = some b →
    exec i s = .next { s with status := .faulted ⟨.outOfBounds .register b.toNat, s.pc⟩ }

/-- R24. Only CMP writes fl: every other instruction leaves it. Only JEQ and JNE read it: any other instruction but CMP does the
same, fl apart, from a state with any other flag; what the jumps read goes to pc and status only, never to a register or to
memory. CMP always overwrites fl whatever it held: a CMP that completes gives the SAME next state from every flag g, and one that
faults keeps g. -/
def Obligations.OnlyCmpWritesAndOnlyJumpsReadTheFlag : Prop :=
  (∀ (i : Instr) (s t : State), exec i s = .next t →
    (i.op ≠ .cmp → t.fl = s.fl) ∧
    (i.op ∉ [Op.cmp, .jeq, .jne] → ∀ g : Flag, exec i { s with fl := g } = .next { t with fl := g }) ∧
    (i.op ∈ [Op.jeq, .jne] → t = { s with pc := t.pc, status := t.status })) ∧
  (∀ (rA rB : Byte) (s : State),
    (rA.toNat < 8 → rB.toNat < 8 → s.pc.toNat ≤ 252 →
      ∃ t : State, (t.fl = .equal ∨ t.fl = .greater ∨ t.fl = .less) ∧
        ∀ g : Flag, exec (.cmp rA rB) { s with fl := g } = .next t) ∧
    (8 ≤ rA.toNat ∨ 8 ≤ rB.toNat ∨ 253 ≤ s.pc.toNat →
      ∃ k : Trap, ∀ g : Flag,
        exec (.cmp rA rB) { s with fl := g } = .next { s with fl := g, status := .faulted ⟨k, s.pc⟩ }))

/-- 10_state.md R15: a register changes only as the destination rA of LDI, MUL, ADD or POP. -/
def Obligations.OnlyDestinationRegistersChange : Prop :=
  ∀ (i : Instr) (s t : State) (r : Fin 8), exec i s = .next t → t.x[r.val] ≠ s.x[r.val] →
    i.op ∈ [Op.ldi, .mul, .add, .pop] ∧ i.operands.head? = some (BitVec.ofNat 8 r.val)

/-- 20_memory.md R36: only PUSH and CALL change memory, and only the byte at sp - 1. -/
def Obligations.OnlyPushAndCallChangeMemory : Prop :=
  ∀ (i : Instr) (s t : State) (a : Nat), exec i s = .next t → t.mem.readByte a ≠ s.mem.readByte a →
    i.op ∈ [Op.push, .call] ∧ a + 1 = s.sp.toNat

/-- 10_state.md R20: only PUSH, POP, CALL and RET change sp, by one, downward for a push and upward for a pop. That sp never wraps
(the change is by one as an integer) is 10_state.md R21 with the spec's decision D8. -/
def Obligations.OnlyStackInstructionsMoveSp : Prop :=
  ∀ (i : Instr) (s t : State), exec i s = .next t → t.sp ≠ s.sp →
    (i.op ∈ [Op.push, .call] ∧ t.sp.toNat + 1 = s.sp.toNat) ∨ (i.op ∈ [Op.pop, .ret] ∧ t.sp.toNat = s.sp.toNat + 1)

/-- R29: out is empty at reset, only PRN appends to it, one byte at its end; the host sees one decimal line for each byte. -/
def Obligations.OnlyPrnOutputsOneDecimalLine : Prop :=
  State.reset.out = [] ∧
  (∀ (i : Instr) (s t : State), exec i s = .next t →
    t.out = s.out ∨ ∃ (rA : Byte) (_ : rA.toNat < 8), i = .prn rA ∧ t.out = s.out ++ [s.x[rA.toNat]]) ∧
  (∀ (s : State) (v : Byte), (s.output v).out = s.out ++ [v] ∧
    (s.output v).outText = s.outText ++ (toString v.toNat ++ "\n"))

/-- 10_state.md R18: an instruction that completes without stopping the machine moves pc to the next instruction, or by a
control transfer to a register's value or to the byte at sp. That the advance is one of integers (pc never wraps) is the spec's
decision D7 (R18 and 30_encoding.md R64). -/
def Obligations.ProgramCounterAdvancesOrTransfers : Prop :=
  ∀ (i : Instr) (s t : State), exec i s = .next t → s.status = .running → t.status = .running →
    t.pc.toNat = s.pc.toNat + i.op.format.length ∨
    (i.op ∈ [Op.call, .jmp, .jeq, .jne] ∧ ∃ r : Fin 8, i.operands = [BitVec.ofNat 8 r.val] ∧ t.pc = s.x[r.val]) ∨
    (i.op = .ret ∧ t.pc = s.mem.readByte s.sp.toNat)

/-- 43_stack.md, POP: PUSH then POP into the same register gives back the register, sp, flag and output. -/
def Obligations.PushThenPopRoundTrips : Prop :=
  ∀ (rA : Byte) (s : State), rA.toNat < 8 → 0 < s.sp.toNat → s.pc.toNat ≤ 251 →
    ∃ t u : State, exec (.push rA) s = .next t ∧ exec (.pop rA) t = .next u ∧
      u = { s with mem := t.mem, pc := BitVec.ofNat 8 (s.pc.toNat + 4) }

/-- 44_control.md, RET: after a CALL and any body that leaves sp and the byte there as CALL left them, RET goes to the
instruction after the CALL and restores sp. -/
def Obligations.CallThenRetReturnsBehindTheCall : Prop :=
  ∀ (rA : Byte) (s : State), rA.toNat < 8 → 0 < s.sp.toNat → s.pc.toNat ≤ 253 →
    ∃ t : State, exec (.call rA) s = .next t ∧
      ∀ u : State, u.sp = t.sp → u.mem.readByte u.sp.toNat = t.mem.readByte t.sp.toNat →
        exec .ret u = .next { u with pc := BitVec.ofNat 8 (s.pc.toNat + 2), sp := s.sp }

/-- 20_memory.md R47 and 70_reset_and_hazards.md R110 (decision D18): a PUSH or CALL executes as it was fetched, even where it
overwrites its own bytes: the step is exec of the fetched instruction, and pc goes where that instruction sends it. The byte it
writes at sp - 1 is then in memory, and every later fetch, at any address p, latches it wherever one of its three reads meets it,
as opcode or as operand, and the old bytes elsewhere. -/
def Obligations.WrittenByteIsSeenByLaterFetches : Prop :=
  ∀ (rA : Byte) (s : State), s.status = .running → (h : rA.toNat < 8) → 0 < s.sp.toNat → s.pc.toNat ≤ 253 →
    (s.fetchDecode = .ok (.push rA) → ∃ t, step s = .next t ∧ step s = exec (.push rA) s ∧ t.status = .running ∧
      t.pc.toNat = s.pc.toNat + 2 ∧ t.sp.toNat + 1 = s.sp.toNat ∧ t.mem.readByte t.sp.toNat = s.x[rA.toNat] ∧
      ∀ p : Byte, p.toNat ≤ 253 → { t with pc := p }.fetch = .ok (s.latchesAfterWrite t.sp s.x[rA.toNat] p)) ∧
    (s.fetchDecode = .ok (.call rA) → ∃ t, step s = .next t ∧ step s = exec (.call rA) s ∧ t.status = .running ∧
      t.pc = s.x[rA.toNat] ∧ t.sp.toNat + 1 = s.sp.toNat ∧ (t.mem.readByte t.sp.toNat).toNat = s.pc.toNat + 2 ∧
      ∀ p : Byte, p.toNat ≤ 253 →
        { t with pc := p }.fetch = .ok (s.latchesAfterWrite t.sp (BitVec.ofNat 8 (s.pc.toNat + 2)) p))

/-- 70_reset_and_hazards.md R112 and 44_control.md R80: a jump to its own address runs forever; nothing detects it. -/
def Obligations.JumpToItselfNeverEnds : Prop :=
  ∀ (rA : Byte) (s : State) (h : rA.toNat < 8), s.status = .running → s.fetchDecode = .ok (.jmp rA) →
    s.x[rA.toNat] = s.pc → ∀ n : Nat, core.run n s = .next s
end

