-- ==== Sys2Proof/Laws/Memory.lean ====
section
/-! SUPPORT. Memory: read after write, every operation keeps the canonical form, canonical memories are determined cell by cell. -/

namespace Sys2Proof.Machine

@[simp] theorem Memory.readByte_nil (a : Nat) : Memory.readByte [] a = Memory.unlisted := rfl

@[simp] theorem Memory.readByte_cons (c : Host.Cell) (m : Memory) (a : Nat) :
    Memory.readByte (c :: m) a = if c.1 = a then c.2 else Memory.readByte m a := rfl

theorem Memory.readByte_of_not_mem {m : Memory} {a : Nat} (h : ∀ c ∈ m, c.1 ≠ a) :
    Memory.readByte m a = Memory.unlisted := by
  induction m with
  | nil => rfl
  | cons c m ih =>
    simp only [Memory.readByte_cons, h c (by simp), if_false]
    exact ih fun d hd => h d (by simp [hd])

theorem Memory.readByte_insertCell {m : Memory} {a : Nat} (v : Byte) (h : ∀ c ∈ m, c.1 ≠ a) (b : Nat) :
    Memory.readByte (Memory.insertCell a v m) b = if b = a then v else Memory.readByte m b := by
  induction m with
  | nil => simp [Memory.insertCell, eq_comm]
  | cons c m ih =>
    have hc : c.1 ≠ a := h c (by simp)
    have ih' := ih fun d hd => h d (by simp [hd])
    by_cases hlt : a < c.1
    · simp [Memory.insertCell, hlt, eq_comm]
    · by_cases hb : c.1 = b
      · have : b ≠ a := fun e => hc (hb.trans e)
        subst hb
        simp [Memory.insertCell, hlt, this]
      · simp [Memory.insertCell, hlt, hb, ih']

theorem Memory.readByte_filter (m : Memory) (a b : Nat) :
    Memory.readByte (m.filter (fun c => c.1 != a)) b = if b = a then Memory.unlisted else Memory.readByte m b := by
  induction m with
  | nil => simp
  | cons c m ih =>
    by_cases hc : c.1 = a
    · by_cases hb : b = a
      · subst hb; simpa [hc] using ih
      · have : c.1 ≠ b := fun e => hb (e.symm.trans hc)
        have hab : a ≠ b := fun e => hb e.symm
        simp [hc, hb, ih, hab]
    · by_cases hcb : c.1 = b
      · have : b ≠ a := fun e => hc (hcb.trans e)
        have hba : ¬ c.1 = a := hc
        simp [hcb, this]
      · simp [hc, hcb, ih]

/-- Read after write: the cell written reads as the byte written, every other cell as before. -/
theorem Memory.readByte_writeByte (m : Memory) (a : Nat) (v : Byte) (b : Nat) :
    (m.writeByte a v).readByte b = if b = a then v else m.readByte b := by
  have hf : ∀ c ∈ m.filter (fun c => c.1 != a), c.1 ≠ a := by
    intro c hc
    simpa using (List.mem_filter.mp hc).2
  unfold Memory.writeByte
  split
  · next hv => rw [Memory.readByte_filter, hv]
  · rw [Memory.readByte_insertCell v hf, Memory.readByte_filter]
    split <;> simp_all

@[simp] theorem Memory.readByte_writeByte_self (m : Memory) (a : Nat) (v : Byte) :
    (m.writeByte a v).readByte a = v := by simp [Memory.readByte_writeByte]

theorem Memory.readByte_writeByte_ne (m : Memory) {a b : Nat} (v : Byte) (h : b ≠ a) :
    (m.writeByte a v).readByte b = m.readByte b := by simp [Memory.readByte_writeByte, h]

/-! ### The canonical form -/

theorem Memory.wf_nil : Memory.wf [] := by decide

theorem Memory.wf_filter {m : Memory} (a : Nat) (h : m.wf) : Memory.wf (m.filter (fun c => c.1 != a)) :=
  ⟨fun c hc => h.1 c (List.mem_filter.mp hc).1, h.2.sublist List.filter_sublist⟩

theorem Memory.mem_insertCell {m : Memory} {a : Nat} {v : Byte} {c : Host.Cell} :
    c ∈ Memory.insertCell a v m ↔ c = (a, v) ∨ c ∈ m := by
  induction m with
  | nil => simp [Memory.insertCell]
  | cons d m ih =>
    by_cases hlt : a < d.1
    · simp [Memory.insertCell, hlt]
    · simp [Memory.insertCell, hlt, ih]; tauto

theorem Memory.wf_insertCell {m : Memory} {a : Nat} {v : Byte} (ha : a < 256) (hv : v ≠ Memory.unlisted)
    (hne : ∀ c ∈ m, c.1 ≠ a) (h : m.wf) : Memory.wf (Memory.insertCell a v m) := by
  refine ⟨fun c hc => ?_, ?_⟩
  · rcases Memory.mem_insertCell.mp hc with rfl | hc
    · exact ⟨ha, hv⟩
    · exact h.1 c hc
  · induction m with
    | nil => simp [Memory.insertCell]
    | cons d m ih =>
      obtain ⟨hd, hm⟩ := List.pairwise_cons.mp h.2
      by_cases hlt : a < d.1
      · simp only [Memory.insertCell, hlt, if_true, List.pairwise_cons]
        refine ⟨fun c hc => ?_, hd, hm⟩
        rcases List.mem_cons.mp hc with rfl | hc
        · exact hlt
        · exact hlt.trans (hd c hc)
      · simp only [Memory.insertCell, hlt, if_false, List.pairwise_cons]
        refine ⟨fun c hc => ?_, ih (fun c hc => hne c (by simp [hc])) ⟨fun c hc => h.1 c (by simp [hc]), hm⟩⟩
        rcases Memory.mem_insertCell.mp hc with rfl | hc
        · exact Nat.lt_of_le_of_ne (Nat.le_of_not_lt hlt) (hne d (by simp))
        · exact hd c hc

/-- Writing a cell that exists keeps the canonical form. -/
theorem Memory.wf_writeByte {m : Memory} {a : Nat} (v : Byte) (ha : a < 256) (h : m.wf) : (m.writeByte a v).wf := by
  unfold Memory.writeByte
  split
  · exact Memory.wf_filter a h
  · next hv =>
    refine Memory.wf_insertCell ha hv (fun c hc => ?_) (Memory.wf_filter a h)
    simpa using (List.mem_filter.mp hc).2

/-- Laying bytes keeps the canonical form. -/
theorem Memory.wf_place {m : Memory} (bs : List Byte) (a : Nat) (h : m.wf) : (m.place a bs).wf := by
  induction bs generalizing m a with
  | nil => exact h
  | cons b bs ih =>
    unfold Memory.place
    split
    · next ha => exact ih (a + 1) (Memory.wf_writeByte b ha h)
    · exact h

/-- What a cell reads as after bytes were laid at `a`. -/
theorem Memory.readByte_place (m : Memory) (bs : List Byte) (a b : Nat) (hb : b < 256) :
    (m.place a bs).readByte b = if a ≤ b ∧ b < a + bs.length then bs.getD (b - a) 0 else m.readByte b := by
  induction bs generalizing m a with
  | nil =>
    have : ¬(a ≤ b ∧ b < a) := by omega
    simp [Memory.place, this]
  | cons v bs ih =>
    unfold Memory.place
    by_cases ha : a < 256
    · rw [if_pos ha, ih, Memory.readByte_writeByte]
      by_cases hab : b = a
      · subst hab
        have h1 : ¬(b + 1 ≤ b ∧ b < b + 1 + bs.length) := by omega
        simp
      · by_cases hin : a + 1 ≤ b ∧ b < a + 1 + bs.length
        · have h2 : a ≤ b ∧ b < a + (v :: bs).length := by simp only [List.length_cons]; omega
          rw [if_pos hin, if_pos h2]
          obtain ⟨k, hk⟩ : ∃ k, b - a = k + 1 := ⟨b - a - 1, by omega⟩
          have hk' : b - (a + 1) = k := by omega
          simp [hk, hk']
        · have h2 : ¬(a ≤ b ∧ b < a + (v :: bs).length) := by simp only [List.length_cons]; omega
          rw [if_neg hin, if_neg h2, if_neg hab]
    · have h2 : ¬(a ≤ b ∧ b < a + (v :: bs).length) := by omega
      rw [if_neg ha, if_neg h2]

end Sys2Proof.Machine
end

