-- ==== Sys2Proof/Laws/State.lean ====
section
/-! SUPPORT. One lemma per field per update of `State`, and what a register reads as after one. -/

namespace Sys2Proof.Machine

@[simp] theorem State.setReg_x (s : State) (r : Fin 8) (v : Byte) : (s.setReg r v).x = s.x.set r.val v r.isLt := rfl
@[simp] theorem State.setReg_mem (s : State) (r : Fin 8) (v : Byte) : (s.setReg r v).mem = s.mem := rfl
@[simp] theorem State.setReg_pc (s : State) (r : Fin 8) (v : Byte) : (s.setReg r v).pc = s.pc := rfl
@[simp] theorem State.setReg_sp (s : State) (r : Fin 8) (v : Byte) : (s.setReg r v).sp = s.sp := rfl
@[simp] theorem State.setReg_fl (s : State) (r : Fin 8) (v : Byte) : (s.setReg r v).fl = s.fl := rfl
@[simp] theorem State.setReg_status (s : State) (r : Fin 8) (v : Byte) : (s.setReg r v).status = s.status := rfl
@[simp] theorem State.setReg_out (s : State) (r : Fin 8) (v : Byte) : (s.setReg r v).out = s.out := rfl
@[simp] theorem State.setReg_cfg (s : State) (r : Fin 8) (v : Byte) : (s.setReg r v).cfg = s.cfg := rfl

@[simp] theorem State.setPc_x (s : State) (v : Byte) : (s.setPc v).x = s.x := rfl
@[simp] theorem State.setPc_mem (s : State) (v : Byte) : (s.setPc v).mem = s.mem := rfl
@[simp] theorem State.setPc_pc (s : State) (v : Byte) : (s.setPc v).pc = v := rfl
@[simp] theorem State.setPc_sp (s : State) (v : Byte) : (s.setPc v).sp = s.sp := rfl
@[simp] theorem State.setPc_fl (s : State) (v : Byte) : (s.setPc v).fl = s.fl := rfl
@[simp] theorem State.setPc_status (s : State) (v : Byte) : (s.setPc v).status = s.status := rfl
@[simp] theorem State.setPc_out (s : State) (v : Byte) : (s.setPc v).out = s.out := rfl
@[simp] theorem State.setPc_cfg (s : State) (v : Byte) : (s.setPc v).cfg = s.cfg := rfl

@[simp] theorem State.setSp_x (s : State) (v : Byte) : (s.setSp v).x = s.x := rfl
@[simp] theorem State.setSp_mem (s : State) (v : Byte) : (s.setSp v).mem = s.mem := rfl
@[simp] theorem State.setSp_pc (s : State) (v : Byte) : (s.setSp v).pc = s.pc := rfl
@[simp] theorem State.setSp_sp (s : State) (v : Byte) : (s.setSp v).sp = v := rfl
@[simp] theorem State.setSp_fl (s : State) (v : Byte) : (s.setSp v).fl = s.fl := rfl
@[simp] theorem State.setSp_status (s : State) (v : Byte) : (s.setSp v).status = s.status := rfl
@[simp] theorem State.setSp_out (s : State) (v : Byte) : (s.setSp v).out = s.out := rfl
@[simp] theorem State.setSp_cfg (s : State) (v : Byte) : (s.setSp v).cfg = s.cfg := rfl

@[simp] theorem State.setFl_x (s : State) (f : Flag) : (s.setFl f).x = s.x := rfl
@[simp] theorem State.setFl_mem (s : State) (f : Flag) : (s.setFl f).mem = s.mem := rfl
@[simp] theorem State.setFl_pc (s : State) (f : Flag) : (s.setFl f).pc = s.pc := rfl
@[simp] theorem State.setFl_sp (s : State) (f : Flag) : (s.setFl f).sp = s.sp := rfl
@[simp] theorem State.setFl_fl (s : State) (f : Flag) : (s.setFl f).fl = f := rfl
@[simp] theorem State.setFl_status (s : State) (f : Flag) : (s.setFl f).status = s.status := rfl
@[simp] theorem State.setFl_out (s : State) (f : Flag) : (s.setFl f).out = s.out := rfl
@[simp] theorem State.setFl_cfg (s : State) (f : Flag) : (s.setFl f).cfg = s.cfg := rfl

@[simp] theorem State.setStatus_x (s : State) (st : Status) : (s.setStatus st).x = s.x := rfl
@[simp] theorem State.setStatus_mem (s : State) (st : Status) : (s.setStatus st).mem = s.mem := rfl
@[simp] theorem State.setStatus_pc (s : State) (st : Status) : (s.setStatus st).pc = s.pc := rfl
@[simp] theorem State.setStatus_sp (s : State) (st : Status) : (s.setStatus st).sp = s.sp := rfl
@[simp] theorem State.setStatus_fl (s : State) (st : Status) : (s.setStatus st).fl = s.fl := rfl
@[simp] theorem State.setStatus_status (s : State) (st : Status) : (s.setStatus st).status = st := rfl
@[simp] theorem State.setStatus_out (s : State) (st : Status) : (s.setStatus st).out = s.out := rfl
@[simp] theorem State.setStatus_cfg (s : State) (st : Status) : (s.setStatus st).cfg = s.cfg := rfl

@[simp] theorem State.storeByte_x (s : State) (a v : Byte) : (s.storeByte a v).x = s.x := rfl
@[simp] theorem State.storeByte_mem (s : State) (a v : Byte) : (s.storeByte a v).mem = s.mem.writeByte a.toNat v := rfl
@[simp] theorem State.storeByte_pc (s : State) (a v : Byte) : (s.storeByte a v).pc = s.pc := rfl
@[simp] theorem State.storeByte_sp (s : State) (a v : Byte) : (s.storeByte a v).sp = s.sp := rfl
@[simp] theorem State.storeByte_fl (s : State) (a v : Byte) : (s.storeByte a v).fl = s.fl := rfl
@[simp] theorem State.storeByte_status (s : State) (a v : Byte) : (s.storeByte a v).status = s.status := rfl
@[simp] theorem State.storeByte_out (s : State) (a v : Byte) : (s.storeByte a v).out = s.out := rfl
@[simp] theorem State.storeByte_cfg (s : State) (a v : Byte) : (s.storeByte a v).cfg = s.cfg := rfl

@[simp] theorem State.output_x (s : State) (v : Byte) : (s.output v).x = s.x := rfl
@[simp] theorem State.output_mem (s : State) (v : Byte) : (s.output v).mem = s.mem := rfl
@[simp] theorem State.output_pc (s : State) (v : Byte) : (s.output v).pc = s.pc := rfl
@[simp] theorem State.output_sp (s : State) (v : Byte) : (s.output v).sp = s.sp := rfl
@[simp] theorem State.output_fl (s : State) (v : Byte) : (s.output v).fl = s.fl := rfl
@[simp] theorem State.output_status (s : State) (v : Byte) : (s.output v).status = s.status := rfl
@[simp] theorem State.output_out (s : State) (v : Byte) : (s.output v).out = s.out ++ [v] := rfl
@[simp] theorem State.output_cfg (s : State) (v : Byte) : (s.output v).cfg = s.cfg := rfl

@[simp] theorem State.takeFault_x (s : State) (k : Trap) : (s.takeFault k).x = s.x := rfl
@[simp] theorem State.takeFault_mem (s : State) (k : Trap) : (s.takeFault k).mem = s.mem := rfl
@[simp] theorem State.takeFault_pc (s : State) (k : Trap) : (s.takeFault k).pc = s.pc := rfl
@[simp] theorem State.takeFault_sp (s : State) (k : Trap) : (s.takeFault k).sp = s.sp := rfl
@[simp] theorem State.takeFault_fl (s : State) (k : Trap) : (s.takeFault k).fl = s.fl := rfl
@[simp] theorem State.takeFault_status (s : State) (k : Trap) : (s.takeFault k).status = .faulted { trap := k, pc := s.pc } := rfl
@[simp] theorem State.takeFault_out (s : State) (k : Trap) : (s.takeFault k).out = s.out := rfl
@[simp] theorem State.takeFault_cfg (s : State) (k : Trap) : (s.takeFault k).cfg = s.cfg := rfl

theorem State.setReg_reg (s : State) (r q : Fin 8) (v : Byte) :
    (s.setReg r v).reg q = if q = r then v else s.reg q := by
  by_cases h : q = r
  · subst h; simp [State.reg, State.setReg]
  · have h' : r.val ≠ q.val := fun e => h (Fin.ext e.symm)
    simp [State.reg, State.setReg, h, h']

@[simp] theorem State.setPc_reg (s : State) (v : Byte) (q : Fin 8) : (s.setPc v).reg q = s.reg q := rfl
@[simp] theorem State.setSp_reg (s : State) (v : Byte) (q : Fin 8) : (s.setSp v).reg q = s.reg q := rfl
@[simp] theorem State.setFl_reg (s : State) (f : Flag) (q : Fin 8) : (s.setFl f).reg q = s.reg q := rfl
@[simp] theorem State.setStatus_reg (s : State) (st : Status) (q : Fin 8) : (s.setStatus st).reg q = s.reg q := rfl
@[simp] theorem State.storeByte_reg (s : State) (a v : Byte) (q : Fin 8) : (s.storeByte a v).reg q = s.reg q := rfl
@[simp] theorem State.output_reg (s : State) (v : Byte) (q : Fin 8) : (s.output v).reg q = s.reg q := rfl
@[simp] theorem State.takeFault_reg (s : State) (k : Trap) (q : Fin 8) : (s.takeFault k).reg q = s.reg q := rfl

end Sys2Proof.Machine
end

