-- ==== Sys2Proof/Laws/Ops.lean ====
section
/-! SUPPORT. What each shared operation can answer, said once. -/

namespace Sys2Proof.Machine

/-! ### The checked address -/

theorem checkAddr_ok {a : Int} (h0 : 0 ≤ a) (h1 : a ≤ 255) : checkAddr a = .ok (BitVec.ofInt 8 a) := by
  simp [checkAddr, h0, h1]

theorem checkAddr_ofNat {n : Nat} (h : n < 256) : checkAddr (n : Int) = .ok (BitVec.ofNat 8 n) := by
  rw [checkAddr_ok (by omega) (by omega)]; simp

theorem checkAddr_error {a : Int} (h : a < 0 ∨ 255 < a) : checkAddr a = .error (.outOfBounds .memory a) := by
  have : ¬(0 ≤ a ∧ a ≤ 255) := by omega
  simp [checkAddr, this]

@[simp] theorem checkAddr_byte (b : Byte) : checkAddr (b.toNat : Int) = .ok b := by
  rw [checkAddr_ofNat b.isLt]; simp

/-! ### Memory access -/

theorem State.memRead_ofNat (s : State) {n : Nat} (h : n < 256) :
    s.memRead (n : Int) = .ok (s.mem.readByte n) := by
  simp [State.memRead, checkAddr_ofNat h, bind, Except.bind, pure, Except.pure, Nat.mod_eq_of_lt h]

@[simp] theorem State.memRead_byte (s : State) (a : Byte) : s.memRead (a.toNat : Int) = .ok (s.mem.readByte a.toNat) :=
  s.memRead_ofNat a.isLt

theorem State.memRead_error (s : State) {a : Int} (h : a < 0 ∨ 255 < a) :
    s.memRead a = .error (.outOfBounds .memory a) := by
  simp [State.memRead, checkAddr_error h, bind, Except.bind]

@[simp] theorem State.memWrite_byte (s : State) (a v : Byte) : s.memWrite (a.toNat : Int) v = .ok (s.storeByte a v) := by
  simp [State.memWrite, bind, Except.bind, pure, Except.pure]

theorem State.memWrite_error (s : State) (v : Byte) {a : Int} (h : a < 0 ∨ 255 < a) :
    s.memWrite a v = .error (.outOfBounds .memory a) := by
  simp [State.memWrite, checkAddr_error h, bind, Except.bind]

/-! ### Next pc and stack slots -/

theorem State.seqNext_ok (s : State) {w : Nat} (h : s.pc.toNat + w ≤ 255) :
    s.seqNext w = .ok (BitVec.ofNat 8 (s.pc.toNat + w)) := by
  have : ((s.pc.toNat : Int) + w) = ((s.pc.toNat + w : Nat) : Int) := by simp
  rw [State.seqNext, this, checkAddr_ofNat (by omega)]

theorem State.seqNext_error (s : State) {w : Nat} (h : 255 < s.pc.toNat + w) :
    s.seqNext w = .error (.outOfBounds .memory ((s.pc.toNat : Int) + w)) := by
  rw [State.seqNext, checkAddr_error (by omega)]

theorem State.pushSlot_ok (s : State) (h : 0 < s.sp.toNat) : s.pushSlot = .ok (BitVec.ofNat 8 (s.sp.toNat - 1)) := by
  have hlt := s.sp.isLt
  have : ((s.sp.toNat : Int) - 1) = ((s.sp.toNat - 1 : Nat) : Int) := by omega
  rw [State.pushSlot, this, checkAddr_ofNat (by omega)]

theorem State.pushSlot_error (s : State) (h : s.sp = 0) : s.pushSlot = .error (.outOfBounds .memory (-1)) := by
  rw [State.pushSlot, h]; decide

theorem State.popSlot_ok (s : State) (h : s.sp.toNat < 255) : s.popSlot = .ok (BitVec.ofNat 8 (s.sp.toNat + 1)) := by
  have : ((s.sp.toNat : Int) + 1) = ((s.sp.toNat + 1 : Nat) : Int) := by simp
  rw [State.popSlot, this, checkAddr_ofNat (by omega)]

theorem State.popSlot_error (s : State) (h : s.sp = 255) : s.popSlot = .error (.outOfBounds .memory 256) := by
  rw [State.popSlot, h]; decide

/-- What `Next(w)` can answer. -/
theorem State.seqNext_cases (s : State) (w : Nat) :
    (s.pc.toNat + w ≤ 255 ∧ s.seqNext w = .ok (BitVec.ofNat 8 (s.pc.toNat + w))) ∨
    (255 < s.pc.toNat + w ∧ s.seqNext w = .error (.outOfBounds .memory ((s.pc.toNat : Int) + w))) := by
  rcases Nat.lt_or_ge 255 (s.pc.toNat + w) with h | h
  · exact .inr ⟨h, s.seqNext_error h⟩
  · exact .inl ⟨h, s.seqNext_ok h⟩

/-- What the address of a push can be. -/
theorem State.pushSlot_cases (s : State) :
    (0 < s.sp.toNat ∧ s.pushSlot = .ok (BitVec.ofNat 8 (s.sp.toNat - 1))) ∨
    (s.sp = 0 ∧ s.pushSlot = .error (.outOfBounds .memory (-1))) := by
  rcases Nat.eq_zero_or_pos s.sp.toNat with h | h
  · have h0 : s.sp = 0 := BitVec.eq_of_toNat_eq (by simpa using h)
    exact .inr ⟨h0, s.pushSlot_error h0⟩
  · exact .inl ⟨h, s.pushSlot_ok h⟩

/-- What sp can be after a pop. -/
theorem State.popSlot_cases (s : State) :
    (s.sp.toNat < 255 ∧ s.popSlot = .ok (BitVec.ofNat 8 (s.sp.toNat + 1))) ∨
    (s.sp = 255 ∧ s.popSlot = .error (.outOfBounds .memory 256)) := by
  rcases Nat.lt_or_ge s.sp.toNat 255 with h | h
  · exact .inl ⟨h, s.popSlot_ok h⟩
  · have hlt := s.sp.isLt
    have h1 : s.sp = 255 := BitVec.eq_of_toNat_eq (by simp; omega)
    exact .inr ⟨h1, s.popSlot_error h1⟩

/-! ### Operands and flags -/

theorem regIdx_ok {b : Byte} (h : b.toNat < 8) : regIdx b = .ok ⟨b.toNat, h⟩ := by simp [regIdx, h]

theorem regIdx_error {b : Byte} (h : 8 ≤ b.toNat) : regIdx b = .error (.outOfBounds .register b.toNat) := by
  have : ¬ b.toNat < 8 := by omega
  simp [regIdx, this]

/-- What `RegIdx` can answer. -/
theorem regIdx_cases (b : Byte) :
    (∃ h : b.toNat < 8, regIdx b = .ok ⟨b.toNat, h⟩) ∨
    (8 ≤ b.toNat ∧ regIdx b = .error (.outOfBounds .register b.toNat)) := by
  rcases Nat.lt_or_ge b.toNat 8 with h | h
  · exact .inl ⟨h, regIdx_ok h⟩
  · exact .inr ⟨h, regIdx_error h⟩

/-- What the flag test can answer. -/
theorem State.flagIsEqual_cases (s : State) :
    (s.fl = .unset ∧ s.cfg.unsetFlagPolicy = .fault ∧ s.flagIsEqual = .error .undefinedFlag) ∨
    (¬(s.fl = .unset ∧ s.cfg.unsetFlagPolicy = .fault) ∧ s.flagIsEqual = .ok (decide (s.fl = .equal))) := by
  by_cases h : s.fl = .unset ∧ s.cfg.unsetFlagPolicy = .fault
  · exact .inl ⟨h.1, h.2, by simp [State.flagIsEqual, h]⟩
  · exact .inr ⟨h, by simp only [State.flagIsEqual, h, if_false]⟩

theorem compareFlag_equal {a b : Byte} : compareFlag a b = .equal ↔ a.toNat = b.toNat := by
  unfold compareFlag; split <;> [skip; split] <;> simp_all

theorem compareFlag_greater {a b : Byte} : compareFlag a b = .greater ↔ b.toNat < a.toNat := by
  unfold compareFlag; split <;> [skip; split] <;> simp_all

theorem compareFlag_less {a b : Byte} : compareFlag a b = .less ↔ a.toNat < b.toNat := by
  unfold compareFlag; split <;> [skip; split] <;> simp_all <;> omega

theorem compareFlag_ne_unset (a b : Byte) : compareFlag a b ≠ .unset := by
  unfold compareFlag; split <;> [skip; split] <;> simp

/-! ### The end of an instruction -/

@[simp] theorem State.conclude_ok (s t : State) : s.conclude (.ok t) = .next t := rfl

@[simp] theorem State.conclude_error (s : State) (k : Trap) : s.conclude (.error k) = .next (s.takeFault k) := rfl

/-- An instruction's end always answers a next state: its effects whole, or a fault taken from the state it began in. -/
theorem State.conclude_cases {s t : State} {r : Except Trap State} (h : s.conclude r = .next t) :
    r = .ok t ∨ ∃ k, r = .error k ∧ t = s.takeFault k := by
  cases r with
  | ok u => simpa using h
  | error k => right; exact ⟨k, rfl, by simpa [eq_comm] using h⟩

/-- Peeling one line off an instruction's pseudocode. -/
theorem bind_ok_iff {α β : Type} {r : Except Trap α} {f : α → Except Trap β} {b : β} :
    (r >>= f) = .ok b ↔ ∃ a, r = .ok a ∧ f a = .ok b := by
  cases r <;> simp [bind, Except.bind]

@[simp] theorem ok_bind {α β : Type} (a : α) (f : α → Except Trap β) : (Except.ok a >>= f) = f a := rfl

@[simp] theorem error_bind {α β : Type} (k : Trap) (f : α → Except Trap β) :
    (Except.error k >>= f) = Except.error k := rfl

@[simp] theorem pure_eq_ok {α : Type} (a : α) : (pure a : Except Trap α) = .ok a := rfl

end Sys2Proof.Machine
end

