-- ==== Sys2Proof/Laws/Exec.lean ====
section
/-! SUPPORT. What each meaning can do, said once: it takes a fault from the state it began in, or it answers exactly the state
given here, under the guards given here. Later proofs cite these instead of unfolding a meaning. -/

namespace Sys2Proof.Machine

/-- The meaning answers a fault taken from `s`. -/
abbrev FaultFrom (s t : State) : Prop := ∃ k, t = s.takeFault k

theorem execHlt_cases {s t : State} (h : execHlt s = .next t) : t = s.setStatus .halted := by
  simpa [execHlt, eq_comm] using h

theorem execLdi_cases {rA imm : Byte} {s t : State} (h : execLdi rA imm s = .next t) :
    FaultFrom s t ∨ ∃ hA : rA.toNat < 8, s.pc.toNat + 3 ≤ 255 ∧
      t = (s.setReg ⟨rA.toNat, hA⟩ imm).setPc (BitVec.ofNat 8 (s.pc.toNat + 3)) := by
  rcases State.conclude_cases h with h | ⟨k, -, rfl⟩
  · rcases regIdx_cases rA with ⟨hA, e⟩ | ⟨-, e⟩ <;> simp only [e, ok_bind, error_bind, reduceCtorEq] at h
    rcases s.seqNext_cases 3 with ⟨hn, e⟩ | ⟨-, e⟩ <;> simp only [e, ok_bind, error_bind, reduceCtorEq] at h
    exact .inr ⟨hA, hn, (Except.ok.inj h).symm⟩
  · exact .inl ⟨k, rfl⟩

theorem execPrn_cases {rA : Byte} {s t : State} (h : execPrn rA s = .next t) :
    FaultFrom s t ∨ ∃ hA : rA.toNat < 8, s.pc.toNat + 2 ≤ 255 ∧
      t = (s.output (s.reg ⟨rA.toNat, hA⟩)).setPc (BitVec.ofNat 8 (s.pc.toNat + 2)) := by
  rcases State.conclude_cases h with h | ⟨k, -, rfl⟩
  · rcases regIdx_cases rA with ⟨hA, e⟩ | ⟨-, e⟩ <;> simp only [e, ok_bind, error_bind, reduceCtorEq] at h
    rcases s.seqNext_cases 2 with ⟨hn, e⟩ | ⟨-, e⟩ <;> simp only [e, ok_bind, error_bind, reduceCtorEq] at h
    exact .inr ⟨hA, hn, (Except.ok.inj h).symm⟩
  · exact .inl ⟨k, rfl⟩

theorem aluWrite_cases {f : Byte → Byte → Byte} {rA rB : Byte} {s t : State} (h : aluWrite f rA rB s = .next t) :
    FaultFrom s t ∨ ∃ (hA : rA.toNat < 8) (hB : rB.toNat < 8), s.pc.toNat + 3 ≤ 255 ∧
      t = (s.setReg ⟨rA.toNat, hA⟩ (f (s.reg ⟨rA.toNat, hA⟩) (s.reg ⟨rB.toNat, hB⟩))).setPc
        (BitVec.ofNat 8 (s.pc.toNat + 3)) := by
  rcases State.conclude_cases h with h | ⟨k, -, rfl⟩
  · rcases regIdx_cases rA with ⟨hA, e⟩ | ⟨-, e⟩ <;> simp only [e, ok_bind, error_bind, reduceCtorEq] at h
    rcases regIdx_cases rB with ⟨hB, e⟩ | ⟨-, e⟩ <;> simp only [e, ok_bind, error_bind, reduceCtorEq] at h
    rcases s.seqNext_cases 3 with ⟨hn, e⟩ | ⟨-, e⟩ <;> simp only [e, ok_bind, error_bind, reduceCtorEq] at h
    exact .inr ⟨hA, hB, hn, (Except.ok.inj h).symm⟩
  · exact .inl ⟨k, rfl⟩

theorem execCmp_cases {rA rB : Byte} {s t : State} (h : execCmp rA rB s = .next t) :
    FaultFrom s t ∨ ∃ (hA : rA.toNat < 8) (hB : rB.toNat < 8), s.pc.toNat + 3 ≤ 255 ∧
      t = (s.setFl (compareFlag (s.reg ⟨rA.toNat, hA⟩) (s.reg ⟨rB.toNat, hB⟩))).setPc
        (BitVec.ofNat 8 (s.pc.toNat + 3)) := by
  rcases State.conclude_cases h with h | ⟨k, -, rfl⟩
  · rcases regIdx_cases rA with ⟨hA, e⟩ | ⟨-, e⟩ <;> simp only [e, ok_bind, error_bind, reduceCtorEq] at h
    rcases regIdx_cases rB with ⟨hB, e⟩ | ⟨-, e⟩ <;> simp only [e, ok_bind, error_bind, reduceCtorEq] at h
    rcases s.seqNext_cases 3 with ⟨hn, e⟩ | ⟨-, e⟩ <;> simp only [e, ok_bind, error_bind, reduceCtorEq] at h
    exact .inr ⟨hA, hB, hn, (Except.ok.inj h).symm⟩
  · exact .inl ⟨k, rfl⟩

theorem execPush_cases {rA : Byte} {s t : State} (h : execPush rA s = .next t) :
    FaultFrom s t ∨ ∃ hA : rA.toNat < 8, 0 < s.sp.toNat ∧ s.pc.toNat + 2 ≤ 255 ∧
      t = ((s.storeByte (BitVec.ofNat 8 (s.sp.toNat - 1)) (s.reg ⟨rA.toNat, hA⟩)).setSp
        (BitVec.ofNat 8 (s.sp.toNat - 1))).setPc (BitVec.ofNat 8 (s.pc.toNat + 2)) := by
  rcases State.conclude_cases h with h | ⟨k, -, rfl⟩
  · rcases regIdx_cases rA with ⟨hA, e⟩ | ⟨-, e⟩ <;> simp only [e, ok_bind, error_bind, reduceCtorEq] at h
    rcases s.pushSlot_cases with ⟨hs, e⟩ | ⟨-, e⟩ <;> simp only [e, ok_bind, error_bind, reduceCtorEq] at h
    rcases s.seqNext_cases 2 with ⟨hn, e⟩ | ⟨-, e⟩ <;> simp only [e, ok_bind, error_bind, reduceCtorEq] at h
    rw [State.memWrite_byte, ok_bind] at h
    exact .inr ⟨hA, hs, hn, (Except.ok.inj h).symm⟩
  · exact .inl ⟨k, rfl⟩

theorem execPop_cases {rA : Byte} {s t : State} (h : execPop rA s = .next t) :
    FaultFrom s t ∨ ∃ hA : rA.toNat < 8, s.sp.toNat < 255 ∧ s.pc.toNat + 2 ≤ 255 ∧
      t = ((s.setReg ⟨rA.toNat, hA⟩ (s.mem.readByte s.sp.toNat)).setSp (BitVec.ofNat 8 (s.sp.toNat + 1))).setPc
        (BitVec.ofNat 8 (s.pc.toNat + 2)) := by
  rcases State.conclude_cases h with h | ⟨k, -, rfl⟩
  · rcases regIdx_cases rA with ⟨hA, e⟩ | ⟨-, e⟩ <;> simp only [e, ok_bind, error_bind, reduceCtorEq] at h
    rw [State.memRead_byte, ok_bind] at h
    rcases s.popSlot_cases with ⟨hs, e⟩ | ⟨-, e⟩ <;> simp only [e, ok_bind, error_bind, reduceCtorEq] at h
    rcases s.seqNext_cases 2 with ⟨hn, e⟩ | ⟨-, e⟩ <;> simp only [e, ok_bind, error_bind, reduceCtorEq] at h
    exact .inr ⟨hA, hs, hn, (Except.ok.inj h).symm⟩
  · exact .inl ⟨k, rfl⟩

theorem execCall_cases {rA : Byte} {s t : State} (h : execCall rA s = .next t) :
    FaultFrom s t ∨ ∃ hA : rA.toNat < 8, 0 < s.sp.toNat ∧ s.pc.toNat + 2 ≤ 255 ∧
      t = ((s.storeByte (BitVec.ofNat 8 (s.sp.toNat - 1)) (BitVec.ofNat 8 (s.pc.toNat + 2))).setSp
        (BitVec.ofNat 8 (s.sp.toNat - 1))).setPc (s.reg ⟨rA.toNat, hA⟩) := by
  rcases State.conclude_cases h with h | ⟨k, -, rfl⟩
  · rcases regIdx_cases rA with ⟨hA, e⟩ | ⟨-, e⟩ <;> simp only [e, ok_bind, error_bind, reduceCtorEq] at h
    rcases s.pushSlot_cases with ⟨hs, e⟩ | ⟨-, e⟩ <;> simp only [e, ok_bind, error_bind, reduceCtorEq] at h
    rcases s.seqNext_cases 2 with ⟨hn, e⟩ | ⟨-, e⟩ <;> simp only [e, ok_bind, error_bind, reduceCtorEq] at h
    rw [State.memWrite_byte, ok_bind] at h
    exact .inr ⟨hA, hs, hn, (Except.ok.inj h).symm⟩
  · exact .inl ⟨k, rfl⟩

theorem execRet_cases {s t : State} (h : execRet s = .next t) :
    FaultFrom s t ∨ s.sp.toNat < 255 ∧
      t = (s.setSp (BitVec.ofNat 8 (s.sp.toNat + 1))).setPc (s.mem.readByte s.sp.toNat) := by
  rcases State.conclude_cases h with h | ⟨k, -, rfl⟩
  · rw [State.memRead_byte, ok_bind] at h
    rcases s.popSlot_cases with ⟨hs, e⟩ | ⟨-, e⟩ <;> simp only [e, ok_bind, error_bind, reduceCtorEq] at h
    exact .inr ⟨hs, (Except.ok.inj h).symm⟩
  · exact .inl ⟨k, rfl⟩

theorem execJmp_cases {rA : Byte} {s t : State} (h : execJmp rA s = .next t) :
    FaultFrom s t ∨ ∃ hA : rA.toNat < 8, t = s.setPc (s.reg ⟨rA.toNat, hA⟩) := by
  rcases State.conclude_cases h with h | ⟨k, -, rfl⟩
  · rcases regIdx_cases rA with ⟨hA, e⟩ | ⟨-, e⟩ <;> simp only [e, ok_bind, error_bind, reduceCtorEq] at h
    exact .inr ⟨hA, (Except.ok.inj h).symm⟩
  · exact .inl ⟨k, rfl⟩

/-- What a branch can answer. -/
theorem State.branch_cases {s t : State} {r : Fin 8} {taken : Bool} (h : s.branch r taken = .ok t) :
    (taken = true ∧ t = s.setPc (s.reg r)) ∨
    (taken = false ∧ s.pc.toNat + 2 ≤ 255 ∧ t = s.setPc (BitVec.ofNat 8 (s.pc.toNat + 2))) := by
  cases taken with
  | true => left; exact ⟨rfl, (Except.ok.inj h).symm⟩
  | false =>
    right
    simp only [State.branch, Bool.false_eq_true, if_false] at h
    rcases s.seqNext_cases 2 with ⟨hn, e⟩ | ⟨-, e⟩ <;> simp only [e, ok_bind, error_bind, reduceCtorEq] at h
    exact ⟨rfl, hn, (Except.ok.inj h).symm⟩

theorem execJeq_cases {rA : Byte} {s t : State} (h : execJeq rA s = .next t) :
    FaultFrom s t ∨ ∃ hA : rA.toNat < 8, ¬(s.fl = .unset ∧ s.cfg.unsetFlagPolicy = .fault) ∧
      ((s.fl = .equal ∧ t = s.setPc (s.reg ⟨rA.toNat, hA⟩)) ∨
       (s.fl ≠ .equal ∧ s.pc.toNat + 2 ≤ 255 ∧ t = s.setPc (BitVec.ofNat 8 (s.pc.toNat + 2)))) := by
  rcases State.conclude_cases h with h | ⟨k, -, rfl⟩
  · rcases regIdx_cases rA with ⟨hA, e⟩ | ⟨-, e⟩ <;> simp only [e, ok_bind, error_bind, reduceCtorEq] at h
    rcases s.flagIsEqual_cases with ⟨-, -, e⟩ | ⟨hf, e⟩ <;> simp only [e, ok_bind, error_bind, reduceCtorEq] at h
    exact .inr ⟨hA, hf, by simpa using State.branch_cases h⟩
  · exact .inl ⟨k, rfl⟩

theorem execJne_cases {rA : Byte} {s t : State} (h : execJne rA s = .next t) :
    FaultFrom s t ∨ ∃ hA : rA.toNat < 8, ¬(s.fl = .unset ∧ s.cfg.unsetFlagPolicy = .fault) ∧
      ((s.fl ≠ .equal ∧ t = s.setPc (s.reg ⟨rA.toNat, hA⟩)) ∨
       (s.fl = .equal ∧ s.pc.toNat + 2 ≤ 255 ∧ t = s.setPc (BitVec.ofNat 8 (s.pc.toNat + 2)))) := by
  rcases State.conclude_cases h with h | ⟨k, -, rfl⟩
  · rcases regIdx_cases rA with ⟨hA, e⟩ | ⟨-, e⟩ <;> simp only [e, ok_bind, error_bind, reduceCtorEq] at h
    rcases s.flagIsEqual_cases with ⟨-, -, e⟩ | ⟨hf, e⟩ <;> simp only [e, ok_bind, error_bind, reduceCtorEq] at h
    exact .inr ⟨hA, hf, by simpa using State.branch_cases h⟩
  · exact .inl ⟨k, rfl⟩

end Sys2Proof.Machine
end

