-- ==== Sys2Proof/Laws/PerInstr.lean ====
section
/-! SUPPORT. Facts of every instruction as syntax, one lemma per constructor, and small lemmas of the decoder. -/

namespace Sys2Proof.Laws.EncodingShape

/-- The operand bytes are as many as the format says (R50, R52); among them stand the register operands, in order (R53); and put
back behind the operation, with any bytes after them, they give the instruction (R55). -/
def Statement (i : Instr) : Prop :=
  i.operands.length = i.op.format.operandCount ∧
  i.registerOperands <+: i.operands ∧
  ∀ y z : Byte, i.op.assemble ((i.operands ++ [y, z]).getD 0 0) ((i.operands ++ [y, z]).getD 1 0) = i

theorem hlt : Statement .hlt := ⟨rfl, by simp [Instr.registerOperands, Instr.operands], fun _ _ => rfl⟩

theorem ldi (a b : Byte) : Statement (.ldi a b) := ⟨rfl, by simp [Instr.registerOperands, Instr.operands], fun _ _ => rfl⟩

theorem prn (a : Byte) : Statement (.prn a) := ⟨rfl, by simp [Instr.registerOperands, Instr.operands], fun _ _ => rfl⟩

theorem mul (a b : Byte) : Statement (.mul a b) := ⟨rfl, by simp [Instr.registerOperands, Instr.operands], fun _ _ => rfl⟩

theorem add (a b : Byte) : Statement (.add a b) := ⟨rfl, by simp [Instr.registerOperands, Instr.operands], fun _ _ => rfl⟩

theorem cmp (a b : Byte) : Statement (.cmp a b) := ⟨rfl, by simp [Instr.registerOperands, Instr.operands], fun _ _ => rfl⟩

theorem push (a : Byte) : Statement (.push a) := ⟨rfl, by simp [Instr.registerOperands, Instr.operands], fun _ _ => rfl⟩

theorem pop (a : Byte) : Statement (.pop a) := ⟨rfl, by simp [Instr.registerOperands, Instr.operands], fun _ _ => rfl⟩

theorem call (a : Byte) : Statement (.call a) := ⟨rfl, by simp [Instr.registerOperands, Instr.operands], fun _ _ => rfl⟩

theorem ret : Statement .ret := ⟨rfl, by simp [Instr.registerOperands, Instr.operands], fun _ _ => rfl⟩

theorem jmp (a : Byte) : Statement (.jmp a) := ⟨rfl, by simp [Instr.registerOperands, Instr.operands], fun _ _ => rfl⟩

theorem jeq (a : Byte) : Statement (.jeq a) := ⟨rfl, by simp [Instr.registerOperands, Instr.operands], fun _ _ => rfl⟩

theorem jne (a : Byte) : Statement (.jne a) := ⟨rfl, by simp [Instr.registerOperands, Instr.operands], fun _ _ => rfl⟩

end Sys2Proof.Laws.EncodingShape

namespace Sys2Proof

/-- Every operation is in the table. -/
theorem Op.mem_all (op : Op) : op ∈ Op.all := by cases op <;> decide

theorem decodeOpcode_byte {m : OpcodeMap} {ir : Byte} {op : Op} (h : decodeOpcode m ir = some op) : m.byte op = ir := by
  simpa using List.find?_some h

/-- What the decoder answers: the operation of the opcode with its operand bytes, or the opcode is in no entry. -/
theorem decode_cases (m : OpcodeMap) (ir opA opB : Byte) :
    (∃ op, decodeOpcode m ir = some op ∧ decode m ir opA opB = .ok (op.assemble opA opB)) ∨
    (decodeOpcode m ir = none ∧ decode m ir opA opB = .error (.unknownInstruction ir)) := by
  unfold decode
  cases h : decodeOpcode m ir with
  | none => right; simp
  | some op => left; exact ⟨op, rfl, rfl⟩

@[simp] theorem Op.assemble_op (op : Op) (opA opB : Byte) : (op.assemble opA opB).op = op := by cases op <;> rfl

end Sys2Proof
end

