-- ==== Sys2Proof/Laws/Step.lean ====
section
/-! SUPPORT. What the fetch and a step can answer, said once. -/

namespace Sys2Proof.Machine

theorem State.fetch_ok (s : State) (h : s.pc.toNat ≤ 253) :
    s.fetch = .ok ⟨s.mem.readByte s.pc.toNat, s.mem.readByte (s.pc.toNat + 1), s.mem.readByte (s.pc.toNat + 2)⟩ := by
  have h1 : s.memRead ((s.pc.toNat : Int) + 1) = .ok (s.mem.readByte (s.pc.toNat + 1)) := by
    have := s.memRead_ofNat (n := s.pc.toNat + 1) (by omega)
    simpa using this
  have h2 : s.memRead ((s.pc.toNat : Int) + 2) = .ok (s.mem.readByte (s.pc.toNat + 2)) := by
    have := s.memRead_ofNat (n := s.pc.toNat + 2) (by omega)
    simpa using this
  simp [State.fetch, h1, h2]

theorem State.fetch_error (s : State) (h : 254 ≤ s.pc.toNat) : s.fetch = .error (.outOfBounds .memory 256) := by
  have hlt := s.pc.isLt
  rcases (by omega : s.pc.toNat = 254 ∨ s.pc.toNat = 255) with h | h
  · have h1 : s.memRead ((s.pc.toNat : Int) + 1) = .ok (s.mem.readByte 255) := by
      rw [h]; exact s.memRead_ofNat (n := 255) (by omega)
    have h2 : s.memRead ((s.pc.toNat : Int) + 2) = .error (.outOfBounds .memory 256) := by
      rw [h]; exact s.memRead_error (by decide)
    simp [State.fetch, h1, h2]
  · have h1 : s.memRead ((s.pc.toNat : Int) + 1) = .error (.outOfBounds .memory 256) := by
      rw [h]; exact s.memRead_error (by decide)
    simp [State.fetch, h1]

/-- What fetch and decode can answer (R62, R63). -/
theorem State.fetchDecode_cases (s : State) :
    (254 ≤ s.pc.toNat ∧ s.fetchDecode = .error (.outOfBounds .memory 256)) ∨
    (s.pc.toNat ≤ 253 ∧ ∃ i, s.fetchDecode = .ok i ∧
      decode s.cfg.opcodes (s.mem.readByte s.pc.toNat) (s.mem.readByte (s.pc.toNat + 1))
        (s.mem.readByte (s.pc.toNat + 2)) = .ok i) ∨
    (s.pc.toNat ≤ 253 ∧ s.fetchDecode = .error (.unknownInstruction (s.mem.readByte s.pc.toNat)) ∧
      decodeOpcode s.cfg.opcodes (s.mem.readByte s.pc.toNat) = none) := by
  rcases Nat.lt_or_ge s.pc.toNat 254 with h | h
  · right
    have hf := s.fetch_ok (by omega)
    rcases decode_cases s.cfg.opcodes (s.mem.readByte s.pc.toNat) (s.mem.readByte (s.pc.toNat + 1))
      (s.mem.readByte (s.pc.toNat + 2)) with ⟨op, ho, hd⟩ | ⟨ho, hd⟩
    · left; exact ⟨by omega, _, by simp [State.fetchDecode, hf, hd], hd⟩
    · right; exact ⟨by omega, by simp [State.fetchDecode, hf, hd], ho⟩
  · left; exact ⟨h, by simp [State.fetchDecode, s.fetch_error h]⟩

/-- What a step that answers a next state did: it took a fetch or decode fault, or ran the instruction at pc. -/
theorem step_cases {s t : State} (h : step s = .next t) :
    s.status = .running ∧
      ((∃ k, s.fetchDecode = .error k ∧ t = s.takeFault k) ∨ (∃ i, s.fetchDecode = .ok i ∧ exec i s = .next t)) := by
  unfold step at h
  split at h
  · cases h
  · cases h
  · next hs =>
    refine ⟨hs, ?_⟩
    split at h
    · next k hk => left; exact ⟨k, hk, by simpa [eq_comm] using h⟩
    · next i hi => right; exact ⟨i, hi, h⟩

/-- What a fetch answers in a state whose memory is that of `s` with `v` written at `a`. -/
theorem State.fetch_of_writeByte {s t : State} {a v : Byte} (hm : t.mem = s.mem.writeByte a.toNat v)
    (hp : t.pc.toNat ≤ 253) : t.fetch = .ok (s.latchesAfterWrite a v t.pc) := by
  rw [t.fetch_ok hp]
  simp [State.latchesAfterWrite, hm, Memory.readByte_writeByte]

end Sys2Proof.Machine
end

