-- ==== Sys2Proof/Machine/AsmText.lean ====
section
/-! DEFINITION. The assembler's spelling of one instruction (spec 30_encoding.md R66). -/

namespace Sys2Proof.Machine

/-- The mnemonic in upper case (R66). -/
def mnemonicText : Op → String
  | .hlt => "HLT"
  | .ldi => "LDI"
  | .prn => "PRN"
  | .mul => "MUL"
  | .add => "ADD"
  | .cmp => "CMP"
  | .push => "PUSH"
  | .pop => "POP"
  | .call => "CALL"
  | .ret => "RET"
  | .jmp => "JMP"
  | .jeq => "JEQ"
  | .jne => "JNE"

/-- A register operand: R0 to R7, or R?b for a byte 8..255 that only a raw image can hold (R66). -/
def registerText (b : Byte) : String :=
  if b.toNat < 8 then "R" ++ toString b.toNat else "R?" ++ toString b.toNat

/-- The text of an instruction, operands in byte order, separated by commas (R66). -/
def asmText (i : Instr) : String :=
  match i with
  | .hlt => mnemonicText .hlt
  | .ldi rA imm => mnemonicText .ldi ++ " " ++ registerText rA ++ "," ++ toString imm.toNat
  | .prn rA => mnemonicText .prn ++ " " ++ registerText rA
  | .mul rA rB => mnemonicText .mul ++ " " ++ registerText rA ++ "," ++ registerText rB
  | .add rA rB => mnemonicText .add ++ " " ++ registerText rA ++ "," ++ registerText rB
  | .cmp rA rB => mnemonicText .cmp ++ " " ++ registerText rA ++ "," ++ registerText rB
  | .push rA => mnemonicText .push ++ " " ++ registerText rA
  | .pop rA => mnemonicText .pop ++ " " ++ registerText rA
  | .call rA => mnemonicText .call ++ " " ++ registerText rA
  | .ret => mnemonicText .ret
  | .jmp rA => mnemonicText .jmp ++ " " ++ registerText rA
  | .jeq rA => mnemonicText .jeq ++ " " ++ registerText rA
  | .jne rA => mnemonicText .jne ++ " " ++ registerText rA

end Sys2Proof.Machine
end

