-- ==== Sys2Proof/Tests/Slice0.lean ====
section
/-! SUPPORT. Tests whose expected results come from the spec (95_test_vectors.md unless said otherwise), and for every obligation
with hypotheses a concrete state and operands that meet them. -/

namespace Sys2Proof.Tests

open Sys2Proof.Machine

/-- One step from `s` moved to `pc` with `bytes` laid there. -/
def stepOn (s : State) (pc : Byte) (bytes : List Byte) : Option State :=
  match step { s with pc := pc, mem := s.mem.place pc.toNat bytes } with
  | .next t => some t
  | .fault _ => none
  | .refused _ => none

/-- The reset state with other registers. -/
def withX (x0 x1 x2 x3 : Byte) : State := { State.reset with x := #v[x0, x1, x2, x3, 0, 0, 0, 0] }

/-- The reset state with other stack pointer. -/
def withSp (s : State) (sp : Byte) : State := { s with sp := sp }

/-- The reset state under `UNSET_FLAG_POLICY` = FAULT. -/
def faultPolicy : State := State.resetWith { Config.default with unsetFlagPolicy := .fault }

/-- The reset state with the bytes of an instruction at address `pc`, ready to step. -/
def ready (pc : Byte) (bytes : List Byte) : State := { State.reset with pc := pc, mem := Memory.place [] pc.toNat bytes }

/-! ### Well-formedness: each check refuses an ill-formed term -/

theorem test_wf_accepts : Instr.wellFormed (.mul 7 7) = true := by decide
theorem test_wf_refuses_rA : Instr.wellFormed (.ldi 8 0) = false := by decide
theorem test_wf_refuses_rB : Instr.wellFormed (.cmp 0 200) = false := by decide
theorem test_wf_keeps_immediate : Instr.wellFormed (.ldi 0 255) = true := by decide
theorem test_map_refuses_repeated_byte : OpcodeMap.distinct { OpcodeMap.ls8 with jne := 0x55 } = false := by decide
theorem test_map_refuses_wrong_count_bits : OpcodeMap.countBits { OpcodeMap.ls8 with jne := 0x96 } = false := by decide
theorem test_params_refuse_zero_fault_status : Config.wellFormed { Config.default with faultExitStatus := 0 } = false := by decide
theorem test_params_default : Config.default.wellFormed = true := by decide

/-! ### Decoding: every constructor from a word written out from 30_encoding.md R52 and R56, fields in address order -/

theorem test_decode_hlt : decodeBytes OpcodeMap.ls8 [0b00000001, 0xFF, 0xFF] = .ok .hlt := by decide
theorem test_decode_ldi : decodeBytes OpcodeMap.ls8 [0b10000010, 0b00000111, 0b11111111] = .ok (.ldi 7 255) := by decide
theorem test_decode_prn : decodeBytes OpcodeMap.ls8 [0b01000111, 0b00000010, 0xFF] = .ok (.prn 2) := by decide
theorem test_decode_mul : decodeBytes OpcodeMap.ls8 [0b10100010, 0b00000001, 0b00000100] = .ok (.mul 1 4) := by decide
theorem test_decode_add : decodeBytes OpcodeMap.ls8 [0b10100000, 0b00000011, 0b00000101] = .ok (.add 3 5) := by decide
theorem test_decode_cmp : decodeBytes OpcodeMap.ls8 [0b10100111, 0b00000000, 0b11001000] = .ok (.cmp 0 200) := by decide
theorem test_decode_push : decodeBytes OpcodeMap.ls8 [0b01000101, 0b00000110, 0x00] = .ok (.push 6) := by decide
theorem test_decode_pop : decodeBytes OpcodeMap.ls8 [0b01000110, 0b00000010, 0x00] = .ok (.pop 2) := by decide
theorem test_decode_call : decodeBytes OpcodeMap.ls8 [0b01010000, 0b00000001, 0x00] = .ok (.call 1) := by decide
theorem test_decode_ret : decodeBytes OpcodeMap.ls8 [0b00010001, 0x00, 0x00] = .ok .ret := by decide
theorem test_decode_jmp : decodeBytes OpcodeMap.ls8 [0b01010100, 0b00000011, 0x00] = .ok (.jmp 3) := by decide
theorem test_decode_jeq : decodeBytes OpcodeMap.ls8 [0b01010101, 0b00000011, 0x00] = .ok (.jeq 3) := by decide
theorem test_decode_jne : decodeBytes OpcodeMap.ls8 [0b01010110, 0b00001000, 0x00] = .ok (.jne 8) := by decide
theorem test_decode_zero_is_illegal : decodeBytes OpcodeMap.ls8 [0x00, 0x00, 0x00] = .error (.unknownInstruction 0x00) := by decide
theorem test_decode_needs_three_bytes : decodeBytes OpcodeMap.ls8 [0x01, 0x00] = .error .truncated := by decide

/-! ### One step of each instruction -/

theorem test_V1_hlt : (stepOn State.reset 0x0B [0x01]).map (fun t => (t.status, t.pc)) = some (.halted, 0x0B) := by decide
theorem test_V2_hlt_at_FE : (stepOn State.reset 0xFE [0x01]).map (fun t => t.status) =
    some (.faulted ⟨.outOfBounds .memory 256, 0xFE⟩) := by decide
theorem test_V5_ldi : (stepOn State.reset 0x10 [0x82, 0x07, 0xFF]).map (fun t => (t.reg 7, t.pc)) = some (255, 0x13) := by decide
theorem test_V7_ldi_at_FD : (stepOn State.reset 0xFD [0x82, 0x00, 0x05]).map (fun t => (t.status, t.reg 0)) =
    some (.faulted ⟨.outOfBounds .memory 256, 0xFD⟩, 0) := by decide
theorem test_V8_prn : (stepOn (withX 72 0 0 0) 0x09 [0x47, 0x00]).map (fun t => (t.out, t.pc)) = some ([72], 0x0B) := by decide
theorem test_V9_prn_register_9 : (stepOn State.reset 0x00 [0x47, 0x09]).map (fun t => (t.status, t.out)) =
    some (.faulted ⟨.outOfBounds .register 9, 0x00⟩, []) := by decide
theorem test_V12_mul : (stepOn (withX 255 255 0 0) 0x00 [0xA2, 0x00, 0x01]).map (fun t => (t.reg 0, t.reg 1, t.pc)) =
    some (1, 255, 0x03) := by decide
theorem test_V16_mul_checks_rA_first : (stepOn State.reset 0x00 [0xA2, 0x09, 0x08]).map (fun t => t.status) =
    some (.faulted ⟨.outOfBounds .register 9, 0x00⟩) := by decide
theorem test_V17_add : (stepOn (withX 200 100 0 0) 0x00 [0xA0, 0x00, 0x01]).map (fun t => (t.reg 0, t.reg 1, t.pc)) =
    some (44, 100, 0x03) := by decide
theorem test_V20_add_same_register : (stepOn (withX 0 0 0 130) 0x00 [0xA0, 0x03, 0x03]).map (fun t => t.reg 3) = some 4 := by decide
theorem test_V23_cmp_is_unsigned : (stepOn (withX 0 255 0 0) 0x00 [0xA7, 0x00, 0x01]).map (fun t => t.fl) = some .less := by decide
theorem test_V25_cmp_overwrites : (stepOn { State.reset with fl := .less } 0x00 [0xA7, 0x04, 0x04]).map (fun t => t.fl) =
    some .equal := by decide
theorem test_V28_push_over_itself : (stepOn (withSp (withX 9 0 0 0) 0x01) 0x00 [0x45, 0x00]).map
    (fun t => (t.mem.readByte 0, t.sp, t.pc)) = some (9, 0x00, 0x02) := by decide
theorem test_V29_push_at_sp_0 : (stepOn (withSp (withX 9 0 0 0) 0x00) 0x00 [0x45, 0x00]).map (fun t => (t.status, t.sp)) =
    some (.faulted ⟨.outOfBounds .memory (-1), 0x00⟩, 0x00) := by decide
theorem test_V31_pop : (stepOn { withSp State.reset 0xF2 with mem := [(0xF2, 6)] } 0x0A [0x46, 0x02]).map
    (fun t => (t.reg 2, t.sp, t.pc, t.mem.readByte 0xF2)) = some (6, 0xF3, 0x0C, 6) := by decide
theorem test_V34_pop_at_sp_FF : (stepOn { withSp State.reset 0xFF with mem := [(0xFF, 0x44)] } 0x00 [0x46, 0x01]).map
    (fun t => (t.status, t.reg 1, t.sp)) = some (.faulted ⟨.outOfBounds .memory 256, 0x00⟩, 0, 0xFF) := by decide
theorem test_V37_call_at_FD : (stepOn (withX 0 0x20 0 0) 0xFD [0x50, 0x01]).map (fun t => (t.mem.readByte 0xF3, t.sp, t.pc)) =
    some (0xFF, 0xF3, 0x20) := by decide
theorem test_V36_call_at_sp_0 : (stepOn (withSp (withX 0 0x0B 0 0) 0x00) 0x06 [0x50, 0x01]).map (fun t => (t.status, t.pc)) =
    some (.faulted ⟨.outOfBounds .memory (-1), 0x06⟩, 0x06) := by decide
theorem test_V39_ret : (stepOn { withSp State.reset 0xF3 with mem := [(0xF3, 0x08)] } 0x0E [0x11]).map (fun t => (t.pc, t.sp)) =
    some (0x08, 0xF4) := by decide
theorem test_V40_ret_at_sp_FF : (stepOn { withSp State.reset 0xFF with mem := [(0xFF, 0x08)] } 0x0E [0x11]).map
    (fun t => t.status) = some (.faulted ⟨.outOfBounds .memory 256, 0x0E⟩) := by decide
theorem test_V42_jmp : (stepOn (withX 0 0 0 0x0C) 0x20 [0x54, 0x03]).map (fun t => t.pc) = some 0x0C := by decide
theorem test_V44_jmp_register_8 : (stepOn State.reset 0x20 [0x54, 0x08]).map (fun t => t.status) =
    some (.faulted ⟨.outOfBounds .register 8, 0x20⟩) := by decide
theorem test_V48_jeq_unset : (stepOn (withX 0 0 0 0x0C) 0x12 [0x55, 0x03]).map (fun t => t.pc) = some 0x14 := by decide
theorem test_V50_jeq_not_taken_checks_register : (stepOn { State.reset with fl := .less } 0x12 [0x55, 0x08]).map
    (fun t => t.status) = some (.faulted ⟨.outOfBounds .register 8, 0x12⟩) := by decide
theorem test_V53_jne_greater : (stepOn { withX 0 0 0 0x0C with fl := .greater } 0x12 [0x56, 0x03]).map (fun t => t.pc) =
    some 0x0C := by decide
theorem test_V54b_jne_unset_under_fault : (stepOn faultPolicy 0x12 [0x56, 0x03]).map (fun t => t.status) =
    some (.faulted ⟨.undefinedFlag, 0x12⟩) := by decide
theorem test_V57_whole_byte_is_matched : (stepOn State.reset 0x10 [0x83, 0x00, 0x00]).map (fun t => t.status) =
    some (.faulted ⟨.unknownInstruction 0x83, 0x10⟩) := by decide

/-! ### The host's view -/

theorem test_fault_codes : FaultCause.unknownInstruction.code = 1 ∧ FaultCause.outOfBounds.code = 2 ∧
    FaultCause.undefinedFlag.code = 3 ∧ (Trap.outOfBounds .memory 256).cause = .outOfBounds := by decide
theorem test_outText_P1 : State.outText { State.reset with out := [72] } = "72\n" := by decide
theorem test_parseImage_S10 : parseImage "# first\n\n10000010 # LDI\n" = some [0x82] := by decide
/-- R68: a blank line between byte lines adds nothing, and a line feed behind the last one adds no byte. -/
theorem test_parseImage_blank_between : parseImage "10000010\n \n00000001 # HLT\n" = some [0x82, 0x01] := by decide
theorem test_parseImage_refuses_short_line : parseImage "1000001\n" = none := by decide
theorem test_asmText_R66 : asmText (.ldi 0 8) = "LDI R0,8" ∧ asmText (.jmp 8) = "JMP R?8" := by decide

/-! ### Hypotheses that something meets, clause by clause at the ends of the ranges -/

theorem witness_LaunchLoadsImageFromAddressZero :
    (List.replicate 256 (1 : Byte)).length ≤ 256 ∧ 256 < (List.replicate 257 (1 : Byte)).length := by
  rw [List.length_replicate, List.length_replicate]; decide
theorem witness_BinaryLinesGiveTheImageBytes :
    (∀ c ∈ [' ', '\t'] ++ ['\r'], c.isWhitespace = true) ∧ (∃ cs, ['#', ' ', '#'] = '#' :: cs) ∧
    ([['1'], []] : List (List Char)) ≠ [] ∧ ∀ l ∈ ([['1'], []] : List (List Char)), '\n' ∉ l :=
  ⟨by intro c hc; simp at hc; rcases hc with rfl | rfl | rfl <;> rfl, ⟨_, rfl⟩, by simp, by simp⟩
theorem witness_ExitStatusFollowsRunStatus : State.reset.status = .running ∧
    State.status { State.reset with status := .halted } = .halted ∧
    State.status { State.reset with status := .faulted ⟨.undefinedFlag, 0⟩ } = .faulted ⟨.undefinedFlag, 0⟩ ∧
    State.reset.cfg.wellFormed = true := by decide
theorem witness_MemReadReturnsTheByteOrRaises :
    ((0 : Int) ≤ 0 ∧ (0 : Int) ≤ 255) ∧ ((0 : Int) ≤ 255 ∧ (255 : Int) ≤ 255) ∧ (-1 : Int) < 0 ∧ (255 : Int) < 256 := by decide
theorem witness_MemWriteSetsOneByteOrRaises :
    ((0 : Int) ≤ 0 ∧ (0 : Int) ≤ 255) ∧ ((0 : Int) ≤ 255 ∧ (255 : Int) ≤ 255 ∧ 254 ≠ (255 : Int).toNat) ∧
    (-1 : Int) < 0 ∧ (255 : Int) < 256 := by decide
theorem witness_CanonicalMemoriesThatReadAlikeAreEqual :
    ∃ m n : Memory, m.wf ∧ n.wf ∧ m ≠ [] ∧ ∀ a < 256, m.readByte a = n.readByte a :=
  ⟨[(0, 1), (255, 2)], [(0, 1), (255, 2)], by decide, by decide, by decide, fun _ _ => rfl⟩
theorem witness_DecodeMatchesTheWholeOpcodeByte : OpcodeMap.ls8.wellFormed = true := by decide
theorem witness_DecodeOfEncodeIsTheInstruction :
    OpcodeMap.wellFormed { OpcodeMap.ls8 with hlt := 0x3F, jne := 0x40 } = true := by decide
theorem witness_EncodeOfDecodeIsTheBytes : decode OpcodeMap.ls8 0x82 7 255 = .ok (.ldi 7 255) ∧
    decode OpcodeMap.ls8 0x01 7 255 = .ok .hlt := by decide
theorem witness_HighOpcodeBitsGiveTheOperandCount :
    OpcodeMap.ls8.wellFormed = true ∧ decode OpcodeMap.ls8 0x47 0 0 = .ok (.prn 0) := by decide
theorem witness_FetchWordIsRunByTheNextStep :
    State.status { State.reset with pc := 253 } = .running ∧ (State.pc { State.reset with pc := 253 }).toNat ≤ 253 ∧
    State.cfg { State.reset with pc := 253 } = Config.default ∧ Config.default.opcodes = OpcodeMap.ls8 ∧
    decodeTableWord 16 0x0747 = some (.prn 7) := by decide
theorem witness_StepRunsTheDecodedInstruction :
    (ready 253 [0x11]).status = .running ∧ (ready 253 [0x11]).pc.toNat ≤ 253 ∧
    decode (ready 253 [0x11]).cfg.opcodes ((ready 253 [0x11]).mem.readByte 253) ((ready 253 [0x11]).mem.readByte 254)
      ((ready 253 [0x11]).mem.readByte 255) = .ok .ret := by decide
theorem witness_IllegalOpcodeRaisesUnknownInstruction :
    (ready 253 [0xC0]).status = .running ∧ (ready 253 [0xC0]).pc.toNat ≤ 253 ∧
    ∀ op : Op, (ready 253 [0xC0]).cfg.opcodes.byte op ≠ (ready 253 [0xC0]).mem.readByte (ready 253 [0xC0]).pc.toNat :=
  ⟨by decide, by decide, fun op => by cases op <;> decide⟩
theorem witness_EagerFetchPastTheTopRaises :
    ((ready 254 [0x01]).status = .running ∧ 254 ≤ (ready 254 [0x01]).pc.toNat) ∧
    ((ready 255 [0x00]).status = .running ∧ 254 ≤ (ready 255 [0x00]).pc.toNat) := by decide
theorem witness_StepTakesTheFirstFaultInPriorityOrder :
    (ready 254 [0x00]).firstTrap = some (.outOfBounds .memory 256) ∧
    (ready 253 [0x00]).firstTrap = some (.unknownInstruction 0) ∧
    (ready 253 [0xA0, 8, 9]).firstTrap = some (.outOfBounds .register 8) ∧
    (ready 253 [0xA0, 7, 9]).firstTrap = some (.outOfBounds .register 9) ∧
    (ready 253 [0xA0, 7, 7]).firstTrap = some (.outOfBounds .memory 256) ∧
    (ready 252 [0xA0, 7, 7]).firstTrap = none ∧
    State.firstTrap { ready 0 [0x56, 7] with cfg := faultPolicy.cfg } = some .undefinedFlag ∧
    (withSp (ready 0 [0x45, 7]) 0).firstTrap = some (.outOfBounds .memory (-1)) ∧
    (withSp (ready 0 [0x11]) 255).firstTrap = some (.outOfBounds .memory 256) ∧
    (withSp (ready 0 [0x11]) 254).firstTrap = none ∧ (ready 254 [0x00]).status = .running := by decide
theorem witness_SafeRunsAreThoseWithoutAFirstFault : State.reset.isFaulted = false := by decide
theorem witness_FaultChangesNothingButStatus :
    ∃ t, step State.reset = .next t ∧ t.status = .faulted ⟨.unknownInstruction 0, 0⟩ := ⟨_, rfl, by decide⟩
theorem witness_OnlyHltHalts : ∃ t, step (ready 253 [0x01]) = .next t ∧ t.status = .halted := ⟨_, rfl, by decide⟩
theorem witness_ResetMeetsTheInvariant : Config.wellFormed { Config.default with spReset := 0x00, faultExitStatus := 7 } = true := by
  decide
theorem witness_StepKeepsTheInvariant : State.reset.Inv ∧ (∃ t, step State.reset = .next t) ∧
    (ready 7 [0x45, 0]).Inv ∧ ∃ t, step (ready 7 [0x45, 0]) = .next t :=
  ⟨⟨by decide, by decide, trivial⟩, ⟨_, rfl⟩, ⟨by decide, by decide, trivial⟩, ⟨_, rfl⟩⟩
theorem witness_StepNeverChangesTheParameters : ∃ t, step (ready 0 [0x82, 7, 255]) = .next t ∧ t.reg 7 = 255 :=
  ⟨_, rfl, by decide⟩
/-- The register bytes, pc and sp at the ends of the ranges that the per-instruction statements ask for. -/
theorem witness_operandRanges : (7 : Byte).toNat < 8 ∧ 8 ≤ (8 : Byte).toNat ∧ 8 ≤ (255 : Byte).toNat ∧
    (ready 252 []).pc.toNat ≤ 252 ∧ (ready 253 []).pc = 0xFD ∧ (ready 253 []).pc.toNat ≤ 253 ∧
    0 < (withSp (ready 253 []) 1).sp.toNat ∧ (withSp (ready 253 []) 0).sp = 0 ∧
    (withSp (ready 253 []) 254).sp.toNat < 255 ∧ (withSp (ready 253 []) 255).sp = 255 := by decide
theorem witness_LdiLoadsTheImmediate : exec (.ldi 7 255) (ready 252 []) =
    .next { ready 252 [] with x := #v[0, 0, 0, 0, 0, 0, 0, 255], pc := 255 } := by rfl
theorem witness_PrnAppendsTheRegisterToTheOutput : exec (.prn 7) (ready 253 []) =
    .next { ready 253 [] with out := [0], pc := 255 } := by rfl
theorem witness_MulWritesTheLowByteOfTheProduct : (ready 252 []).x[(7 : Byte).toNat] = 0 ∧ (7 : Byte).toNat < 8 ∧
    (ready 252 []).pc.toNat ≤ 252 ∧ (ready 253 []).pc = 0xFD ∧ 8 ≤ (8 : Byte).toNat := by decide
theorem witness_AddWritesTheSumModulo256 : (ready 252 []).x[(0 : Byte).toNat] = 0 ∧ (0 : Byte).toNat < 8 ∧
    (ready 252 []).pc.toNat ≤ 252 ∧ (ready 253 []).pc = 0xFD ∧ 8 ≤ (8 : Byte).toNat := by decide
theorem witness_CmpRecordsTheUnsignedOrder : (withX 1 2 0 0).x[(1 : Byte).toNat] = 2 ∧ (1 : Byte).toNat < 8 ∧
    (withX 1 2 0 0).pc.toNat ≤ 252 ∧ (ready 253 []).pc = 0xFD ∧ 8 ≤ (8 : Byte).toNat := by decide
theorem witness_PushStoresTheRegisterBelowSp : (7 : Byte).toNat < 8 ∧ 0 < (withSp (ready 253 []) 1).sp.toNat ∧
    (withSp (ready 253 []) 1).pc.toNat ≤ 253 ∧ (withSp (ready 253 []) 1).pushSlot = .ok 0 ∧
    (withSp (ready 253 []) 0).sp = 0 ∧ 8 ≤ (8 : Byte).toNat := by decide
theorem witness_PopLoadsTheByteAtSp : (7 : Byte).toNat < 8 ∧ (withSp (ready 253 []) 254).sp.toNat < 255 ∧
    (withSp (ready 253 []) 254).pc.toNat ≤ 253 ∧ (withSp (ready 253 []) 255).sp = 255 ∧ 8 ≤ (8 : Byte).toNat := by decide
theorem witness_CallPushesTheReturnAddressAndJumps : (7 : Byte).toNat < 8 ∧ 0 < (withSp (ready 253 []) 1).sp.toNat ∧
    (withSp (ready 253 []) 1).pc.toNat ≤ 253 ∧ (withSp (ready 253 []) 1).pushSlot = .ok 0 ∧
    (withSp (ready 253 []) 0).sp = 0 ∧ 8 ≤ (8 : Byte).toNat := by decide
theorem witness_RetPopsTheProgramCounter : (withSp State.reset 254).sp.toNat < 255 ∧ (withSp State.reset 255).sp = 255 := by decide
theorem witness_JmpGoesToTheRegister : (7 : Byte).toNat < 8 ∧ 8 ≤ (8 : Byte).toNat := by decide
theorem witness_JeqJumpsExactlyOnEqual : (7 : Byte).toNat < 8 ∧ (ready 253 []).pc.toNat ≤ 253 ∧
    State.fl { ready 253 [] with fl := .equal } = .equal ∧ State.fl { ready 253 [] with fl := .greater } = .greater ∧
    ((ready 253 []).fl = .unset ∧ (ready 253 []).cfg.unsetFlagPolicy = .notEqual) ∧
    (faultPolicy.fl = .unset ∧ faultPolicy.cfg.unsetFlagPolicy = .fault) ∧ 8 ≤ (8 : Byte).toNat := by decide
theorem witness_JneJumpsExactlyUnlessEqual : (7 : Byte).toNat < 8 ∧ (ready 253 []).pc.toNat ≤ 253 ∧
    State.fl { ready 253 [] with fl := .equal } = .equal ∧ State.fl { ready 253 [] with fl := .less } = .less ∧
    ((ready 253 []).fl = .unset ∧ (ready 253 []).cfg.unsetFlagPolicy = .notEqual) ∧
    (faultPolicy.fl = .unset ∧ faultPolicy.cfg.unsetFlagPolicy = .fault) ∧ 8 ≤ (8 : Byte).toNat := by decide
theorem witness_RegisterOperandsAreCheckedFirst :
    (Instr.registerOperands (.mul 8 9)).find? (fun c => decide (8 ≤ c.toNat)) = some 8 ∧
    (Instr.registerOperands (.cmp 7 255)).find? (fun c => decide (8 ≤ c.toNat)) = some 255 := by decide
theorem witness_OnlyCmpWritesAndOnlyJumpsReadTheFlag :
    (∃ t, exec (.jeq 0) State.reset = .next t ∧ (Instr.jeq 0).op ∈ [Op.jeq, .jne]) ∧
    (∃ t, exec (.add 0 1) State.reset = .next t ∧ (Instr.add 0 1).op ∉ [Op.cmp, .jeq, .jne]) ∧
    ((7 : Byte).toNat < 8 ∧ (ready 252 []).pc.toNat ≤ 252) ∧ 8 ≤ (8 : Byte).toNat ∧ 253 ≤ (ready 253 []).pc.toNat :=
  ⟨⟨_, rfl, by decide⟩, ⟨_, rfl, by decide⟩, by decide, by decide, by decide⟩
theorem witness_OnlyDestinationRegistersChange :
    ∃ t, exec (.ldi 7 1) State.reset = .next t ∧ t.x[(7 : Fin 8).val] ≠ State.reset.x[(7 : Fin 8).val] := ⟨_, rfl, by decide⟩
theorem witness_OnlyPushAndCallChangeMemory :
    ∃ t, exec (.push 0) (withX 5 0 0 0) = .next t ∧ t.mem.readByte 0xF3 ≠ (withX 5 0 0 0).mem.readByte 0xF3 := ⟨_, rfl, by decide⟩
theorem witness_OnlyStackInstructionsMoveSp :
    (∃ t, exec (.push 0) (withSp State.reset 1) = .next t ∧ t.sp ≠ (withSp State.reset 1).sp) ∧
    ∃ t, exec .ret (withSp State.reset 254) = .next t ∧ t.sp ≠ (withSp State.reset 254).sp := ⟨⟨_, rfl, by decide⟩, ⟨_, rfl, by decide⟩⟩
theorem witness_OnlyPrnOutputsOneDecimalLine : ∃ t, exec (.prn 0) (withX 72 0 0 0) = .next t ∧ t.out = [72] := ⟨_, rfl, by decide⟩
theorem witness_ProgramCounterAdvancesOrTransfers :
    (∃ t, exec (.ldi 0 0) (ready 252 []) = .next t ∧ t.status = .running ∧ t.pc = 255) ∧
    ∃ t, exec (.jmp 3) (withX 0 0 0 9) = .next t ∧ t.status = .running ∧ t.pc = 9 :=
  ⟨⟨_, rfl, by decide, by decide⟩, ⟨_, rfl, by decide, by decide⟩⟩
theorem witness_PushThenPopRoundTrips : (7 : Byte).toNat < 8 ∧ 0 < (withSp (ready 251 []) 1).sp.toNat ∧
    (withSp (ready 251 []) 1).pc.toNat ≤ 251 := by decide
theorem witness_CallThenRetReturnsBehindTheCall : ∃ t, exec (.call 7) (withSp (ready 253 []) 1) = .next t ∧
    (7 : Byte).toNat < 8 ∧ 0 < (withSp (ready 253 []) 1).sp.toNat ∧ (withSp (ready 253 []) 1).pc.toNat ≤ 253 ∧ t.sp = 0 :=
  ⟨_, rfl, by decide, by decide, by decide, by decide⟩
theorem witness_WrittenByteIsSeenByLaterFetches :
    ((withSp (ready 253 [0x45, 7]) 254).fetchDecode = .ok (.push 7) ∧ (withSp (ready 253 [0x45, 7]) 254).status = .running ∧
      (7 : Byte).toNat < 8 ∧ 0 < (withSp (ready 253 [0x45, 7]) 254).sp.toNat ∧
      (withSp (ready 253 [0x45, 7]) 254).pc.toNat ≤ 253) ∧
    ((withSp (ready 253 [0x50, 7]) 1).fetchDecode = .ok (.call 7) ∧ (withSp (ready 253 [0x50, 7]) 1).status = .running ∧
      0 < (withSp (ready 253 [0x50, 7]) 1).sp.toNat ∧ (withSp (ready 253 [0x50, 7]) 1).pc.toNat ≤ 253) := by decide
/-- 95_test_vectors.md P8, step 241: a CALL that overwrites its own operand byte still jumps to x1, and a later fetch of it sees
the new operand. -/
theorem test_P8_call_overwrites_its_operand : (stepOn (withSp (withX 0 3 0 0) 0x05) 0x03 [0x50, 0x01]).map
    (fun t => (t.pc, t.sp, t.fetch)) = some (0x03, 0x04, .ok ⟨0x50, 0x05, 0x00⟩) := by decide
theorem witness_JumpToItselfNeverEnds : (ready 0 [0x54, 7]).status = .running ∧
    (ready 0 [0x54, 7]).fetchDecode = .ok (.jmp 7) ∧ (ready 0 [0x54, 7]).x[(7 : Byte).toNat] = (ready 0 [0x54, 7]).pc := by decide

end Sys2Proof.Tests
end

section
/-! PROOFS. The reset registers, the output sequence and the flag register (spec 10_state.md R16, R24, R29). -/

namespace Sys2Proof.Machine

/-! ### Reset -/

@[simp] theorem State.resetWith_x (c : Config) : (State.resetWith c).x = Vector.replicate 8 0 := rfl

/-- Settles O1: reset fills the register vector with 0, whatever the parameters. -/
theorem registersAreZeroAtReset : Obligations.RegistersAreZeroAtReset := by
  have zeroUnder (c : Config) (r : Fin 8) : (State.resetWith c).x[r.val] = 0 := by simp
  exact fun c r => ⟨zeroUnder c r, zeroUnder Config.default r⟩

/-! ### The output sequence -/

/-- Only PRN appends to out, and it appends one register's byte (R29, R71). -/
theorem exec_out_eq_or_prn {i : Instr} {s t : State} (h : exec i s = .next t) :
    t.out = s.out ∨ ∃ (rA : Byte) (_ : rA.toNat < 8), i = .prn rA ∧ t.out = s.out ++ [s.x[rA.toNat]] := by
  cases i with
  | prn rA =>
    rcases execPrn_cases h with ⟨k, rfl⟩ | ⟨hA, -, rfl⟩
    · exact .inl rfl
    · exact .inr ⟨rA, hA, rfl, rfl⟩
  | hlt => cases execHlt_cases h; exact .inl rfl
  | ldi => rcases execLdi_cases h with ⟨k, rfl⟩ | ⟨-, -, rfl⟩ <;> exact .inl rfl
  | mul => rcases aluWrite_cases h with ⟨k, rfl⟩ | ⟨-, -, -, rfl⟩ <;> exact .inl rfl
  | add => rcases aluWrite_cases h with ⟨k, rfl⟩ | ⟨-, -, -, rfl⟩ <;> exact .inl rfl
  | cmp => rcases execCmp_cases h with ⟨k, rfl⟩ | ⟨-, -, -, rfl⟩ <;> exact .inl rfl
  | push => rcases execPush_cases h with ⟨k, rfl⟩ | ⟨-, -, -, rfl⟩ <;> exact .inl rfl
  | pop => rcases execPop_cases h with ⟨k, rfl⟩ | ⟨-, -, -, rfl⟩ <;> exact .inl rfl
  | call => rcases execCall_cases h with ⟨k, rfl⟩ | ⟨-, -, -, rfl⟩ <;> exact .inl rfl
  | ret => rcases execRet_cases h with ⟨k, rfl⟩ | ⟨-, rfl⟩ <;> exact .inl rfl
  | jmp => rcases execJmp_cases h with ⟨k, rfl⟩ | ⟨-, rfl⟩ <;> exact .inl rfl
  | jeq => rcases execJeq_cases h with ⟨k, rfl⟩ | ⟨-, -, ⟨-, rfl⟩ | ⟨-, -, rfl⟩⟩ <;> exact .inl rfl
  | jne => rcases execJne_cases h with ⟨k, rfl⟩ | ⟨-, -, ⟨-, rfl⟩ | ⟨-, -, rfl⟩⟩ <;> exact .inl rfl

/-- `Output(v)` adds v's line behind the text of the output so far (R101). -/
theorem State.outText_output (s : State) (v : Byte) : (s.output v).outText = s.outText ++ outLine v := by
  simp [State.outText]

/-- Settles O44, by what each meaning does to out and by the text of an appended byte. -/
theorem onlyPrnOutputsOneDecimalLine : Obligations.OnlyPrnOutputsOneDecimalLine :=
  ⟨rfl, fun _ _ _ h => exec_out_eq_or_prn h, fun s v => ⟨rfl, s.outText_output v⟩⟩

/-! ### The flag register: what does not read it -/

@[simp] theorem State.seqNext_setFl (s : State) (g : Flag) (w : Nat) : (s.setFl g).seqNext w = s.seqNext w := rfl

/-- A meaning whose pseudocode gives, from another flag, the same result with that flag, ends the same way from it: a fault is
taken from a state that holds that flag as well. -/
theorem State.conclude_setFl {s t : State} {r r' : Except Trap State} (g : Flag) (h : s.conclude r = .next t)
    (hr : r' = (·.setFl g) <$> r) : (s.setFl g).conclude r' = .next (t.setFl g) := by
  subst hr
  rcases State.conclude_cases h with rfl | ⟨k, rfl, rfl⟩ <;> rfl

/-- The instructions other than CMP, JEQ and JNE do not read fl and keep it: their pseudocode runs alike from any flag. -/
theorem exec_setFl {i : Instr} {s t : State} (g : Flag) (hi : i.op ∉ [Op.cmp, .jeq, .jne]) (h : exec i s = .next t) :
    exec i (s.setFl g) = .next (t.setFl g) := by
  cases i with
  | hlt => cases execHlt_cases h; rfl
  | ldi | prn | mul | add | pop | ret | jmp => exact State.conclude_setFl g h (by simp only [map_bind]; rfl)
  | push | call => exact State.conclude_setFl g h (by simp only [map_bind, State.memWrite_byte]; rfl)
  | cmp | jeq | jne => simp [Instr.op] at hi

/-! ### The flag register: what reads or writes it -/

/-- JEQ and JNE change only pc and status. -/
theorem exec_conditionalJump_frame {i : Instr} {s t : State} (hi : i.op ∈ [Op.jeq, .jne]) (h : exec i s = .next t) :
    t = { s with pc := t.pc, status := t.status } := by
  cases i with
  | jeq => rcases execJeq_cases h with ⟨k, rfl⟩ | ⟨-, -, ⟨-, rfl⟩ | ⟨-, -, rfl⟩⟩ <;> rfl
  | jne => rcases execJne_cases h with ⟨k, rfl⟩ | ⟨-, -, ⟨-, rfl⟩ | ⟨-, -, rfl⟩⟩ <;> rfl
  | _ => simp [Instr.op] at hi

/-- Only CMP writes fl. An instruction that does not read fl gives the state it began in its own flag back, hence keeps it. -/
theorem exec_fl {i : Instr} {s t : State} (hi : i.op ≠ .cmp) (h : exec i s = .next t) : t.fl = s.fl := by
  by_cases hj : i.op ∈ [Op.jeq, .jne]
  · rw [exec_conditionalJump_frame hj h]
  · have keeps : exec i s = .next (t.setFl s.fl) := exec_setFl s.fl (by simp_all) h
    have same : t = t.setFl s.fl := Host.Outcome.next.inj (h.symm.trans keeps)
    rw [same, State.setFl_fl]

theorem compareFlag_cases (a b : Byte) :
    compareFlag a b = .equal ∨ compareFlag a b = .greater ∨ compareFlag a b = .less := by
  cases h : compareFlag a b with
  | unset => exact absurd h (compareFlag_ne_unset a b)
  | equal | greater | less => simp

/-- CMP completes: fl records the comparison, pc moves on (R75). -/
theorem execCmp_ok {rA rB : Byte} {s : State} (hA : rA.toNat < 8) (hB : rB.toNat < 8) (hpc : s.pc.toNat ≤ 252) :
    execCmp rA rB s = .next ((s.setFl (compareFlag (s.reg ⟨rA.toNat, hA⟩) (s.reg ⟨rB.toNat, hB⟩))).setPc
      (BitVec.ofNat 8 (s.pc.toNat + 3))) := by
  simp [execCmp, regIdx_ok hA, regIdx_ok hB, s.seqNext_ok (w := 3) (by omega)]

/-- CMP overwrites fl: from every flag it completes in one and the same state. -/
theorem execCmp_overwrites_fl {rA rB : Byte} {s : State} (hA : rA.toNat < 8) (hB : rB.toNat < 8)
    (hpc : s.pc.toNat ≤ 252) :
    ∃ t : State, (t.fl = .equal ∨ t.fl = .greater ∨ t.fl = .less) ∧ ∀ g, execCmp rA rB (s.setFl g) = .next t :=
  ⟨(s.setFl (compareFlag (s.reg ⟨rA.toNat, hA⟩) (s.reg ⟨rB.toNat, hB⟩))).setPc (BitVec.ofNat 8 (s.pc.toNat + 3)),
    compareFlag_cases _ _, fun _ => execCmp_ok hA hB hpc⟩

/-- CMP raises, and which trap it raises does not depend on the flag (R53, R75). -/
theorem execCmp_fault {rA rB : Byte} {s : State} (h : 8 ≤ rA.toNat ∨ 8 ≤ rB.toNat ∨ 253 ≤ s.pc.toNat) :
    ∃ k, ∀ g, execCmp rA rB (s.setFl g) = .next ((s.setFl g).takeFault k) := by
  rcases regIdx_cases rA with ⟨hA, eA⟩ | ⟨-, eA⟩
  · rcases regIdx_cases rB with ⟨hB, eB⟩ | ⟨-, eB⟩
    · have hn : 255 < s.pc.toNat + 3 := by omega
      exact ⟨_, fun g => by rw [execCmp, eA, eB, State.seqNext_setFl, s.seqNext_error hn]; rfl⟩
    · exact ⟨_, fun g => by rw [execCmp, eA, eB]; rfl⟩
  · exact ⟨_, fun g => by rw [execCmp, eA]; rfl⟩

/-- Settles O40: the two frames of the other instructions, and CMP's completion and faults from any flag. -/
theorem onlyCmpWritesAndOnlyJumpsReadTheFlag : Obligations.OnlyCmpWritesAndOnlyJumpsReadTheFlag :=
  ⟨fun _ _ _ h => ⟨(exec_fl · h), fun hi g => exec_setFl g hi h, (exec_conditionalJump_frame · h)⟩,
    fun _ _ _ => ⟨execCmp_overwrites_fl, execCmp_fault⟩⟩

end Sys2Proof.Machine
end

section
/-! PROOFS. The two memory operations over all integer addresses (spec 20_memory.md R34, R35). -/

namespace Sys2Proof.Machine

/-- The addresses that exist are the bytes (R33), so the laws about a byte address speak of every one of them. -/
theorem exists_byte_of_address {a : Int} (h0 : 0 ≤ a) (h1 : a ≤ 255) : ∃ k : Byte, (k.toNat : Int) = a := by
  lift a to Nat using h0
  exact ⟨BitVec.ofNat 8 a, by rw [BitVec.toNat_ofNat, Nat.mod_eq_of_lt (by omega)]⟩

/-- Settles O7: inside, the store at that byte, read back cell by cell; outside, the checked address raises. -/
theorem memWriteSetsOneByteOrRaises : Obligations.MemWriteSetsOneByteOrRaises := by
  refine fun s a v => ⟨fun h0 h1 => ?_, s.memWrite_error v⟩
  obtain ⟨k, rfl⟩ := exists_byte_of_address h0 h1
  exact ⟨s.storeByte k v, s.memWrite_byte k v, s.mem.readByte_writeByte_self k.toNat v,
    fun _ hb => s.mem.readByte_writeByte_ne v hb, rfl⟩

/-- Settles O6: inside, the read at that byte; outside, the checked address raises. -/
theorem memReadReturnsTheByteOrRaises : Obligations.MemReadReturnsTheByteOrRaises := by
  refine fun s a => ⟨fun h0 h1 => ?_, s.memRead_error⟩
  obtain ⟨k, rfl⟩ := exists_byte_of_address h0 h1
  exact s.memRead_byte k

end Sys2Proof.Machine
end

section
/-! PROOFS. The decoder compares the whole opcode byte with the map (spec 30_encoding.md R56, R58). -/

namespace Sys2Proof

/-- No two operations share a byte of a legal map (R56). -/
theorem OpcodeMap.byte_injective {m : OpcodeMap} (hm : m.wellFormed = true) : Function.Injective m.byte := by
  obtain ⟨hdistinct, -⟩ := Bool.and_eq_true_iff.mp hm
  have hnodup : (Op.all.map m.byte).Nodup := of_decide_eq_true hdistinct
  exact fun a b hab => List.inj_on_of_nodup_map hnodup a.mem_all b.mem_all hab

/-- The decoder rejects exactly the bytes in no entry; the map need not be legal. -/
theorem decodeOpcode_eq_none_iff {m : OpcodeMap} {ir : Byte} :
    decodeOpcode m ir = none ↔ ∀ op : Op, m.byte op ≠ ir := by
  simp [decodeOpcode, Op.mem_all]

/-- Under a legal map the decoder inverts `OPCODE_MAP`: it answers some operation with the byte, and only one has it. -/
theorem decodeOpcode_eq_some_iff {m : OpcodeMap} (hm : m.wellFormed = true) {ir : Byte} {op : Op} :
    decodeOpcode m ir = some op ↔ m.byte op = ir := by
  refine ⟨decodeOpcode_byte, fun hop => ?_⟩
  cases h : decodeOpcode m ir with
  | none => exact absurd hop (decodeOpcode_eq_none_iff.mp h op)
  | some found =>
    have hbyte : m.byte found = m.byte op := (decodeOpcode_byte h).trans hop.symm
    rw [OpcodeMap.byte_injective hm hbyte]

/-- Settles O9, by the distinct bytes of a legal map and the decoder's search through all thirteen operations. -/
theorem decodeMatchesTheWholeOpcodeByte : Obligations.DecodeMatchesTheWholeOpcodeByte :=
  fun _ _ hm => ⟨fun _ => decodeOpcode_eq_some_iff hm, decodeOpcode_eq_none_iff⟩

end Sys2Proof
end

section
/-! PROOFS. LDI (spec 41_halt_load_print.md R70). -/

namespace Sys2Proof.Machine

/-- At pc 0xFD the byte behind a three-byte instruction is the first that does not exist (R33). -/
theorem State.seqNext_three_error (s : State) (h : s.pc = 0xFD) : s.seqNext 3 = .error (.outOfBounds .memory 256) := by
  rw [s.seqNext_error (by simp [h]), h]
  rfl

theorem execLdi_ok {rA : Byte} (imm : Byte) {s : State} (hA : rA.toNat < 8) (hpc : s.pc.toNat ≤ 252) :
    execLdi rA imm s = .next ((s.setReg ⟨rA.toNat, hA⟩ imm).setPc (BitVec.ofNat 8 (s.pc.toNat + 3))) := by
  simp [execLdi, immediate, regIdx_ok hA, s.seqNext_ok (w := 3) (by omega)]

/-- The register operand is checked before the next pc (R53). -/
theorem execLdi_register_fault {rA : Byte} (imm : Byte) (s : State) (hA : 8 ≤ rA.toNat) :
    execLdi rA imm s = .next (s.takeFault (.outOfBounds .register rA.toNat)) := by
  simp [execLdi, regIdx_error hA]

theorem execLdi_memory_fault {rA : Byte} (imm : Byte) {s : State} (hA : rA.toNat < 8) (hpc : s.pc = 0xFD) :
    execLdi rA imm s = .next (s.takeFault (.outOfBounds .memory 256)) := by
  simp [execLdi, regIdx_ok hA, s.seqNext_three_error hpc]

/-- Settles O27: LDI's completion and its two faults, in the order of its checks. -/
theorem ldiLoadsTheImmediate : Obligations.LdiLoadsTheImmediate :=
  fun _ imm s => ⟨fun hA hpc => execLdi_ok imm hA hpc, execLdi_register_fault imm s, execLdi_memory_fault imm⟩

end Sys2Proof.Machine
end

section
/-! PROOFS. The ALU: MUL, ADD and CMP (spec 42_alu.md R72 to R75). -/

namespace Sys2Proof.Machine

/-! ### What the three instructions share: two register operands and a length of three bytes -/

/-- The pseudocode MUL, ADD and CMP share: the checks in the order of their exceptions, then an effect and the next pc. -/
def State.onRegisterPair (s : State) (rA rB : Byte) (effect : Fin 8 → Fin 8 → State) : Result := s.conclude do
  let a ← regIdx rA
  let b ← regIdx rB
  let n ← s.seqNext 3
  pure ((effect a b).setPc n)

theorem exec_mul_eq_onRegisterPair (rA rB : Byte) (s : State) :
    exec (.mul rA rB) s = s.onRegisterPair rA rB fun a b => s.setReg a (mulByte (s.reg a) (s.reg b)) := rfl

theorem exec_add_eq_onRegisterPair (rA rB : Byte) (s : State) :
    exec (.add rA rB) s = s.onRegisterPair rA rB fun a b => s.setReg a (addByte (s.reg a) (s.reg b)) := rfl

theorem exec_cmp_eq_onRegisterPair (rA rB : Byte) (s : State) :
    exec (.cmp rA rB) s = s.onRegisterPair rA rB fun a b => s.setFl (compareFlag (s.reg a) (s.reg b)) := rfl

theorem State.onRegisterPair_ok {rA rB : Byte} {s : State} (effect : Fin 8 → Fin 8 → State) (hA : rA.toNat < 8)
    (hB : rB.toNat < 8) (hpc : s.pc.toNat ≤ 252) :
    s.onRegisterPair rA rB effect =
      .next ((effect ⟨rA.toNat, hA⟩ ⟨rB.toNat, hB⟩).setPc (BitVec.ofNat 8 (s.pc.toNat + 3))) := by
  simp [State.onRegisterPair, regIdx_ok hA, regIdx_ok hB, s.seqNext_ok (w := 3) (by omega)]

/-- The three exceptions of R73, which R74 and R75 take over: whatever the effect would be, the fault is taken from `s`. -/
theorem State.onRegisterPair_faults (rA rB : Byte) (s : State) (effect : Fin 8 → Fin 8 → State) :
    (8 ≤ rA.toNat → s.onRegisterPair rA rB effect = .next (s.takeFault (.outOfBounds .register rA.toNat))) ∧
    (rA.toNat < 8 → 8 ≤ rB.toNat →
      s.onRegisterPair rA rB effect = .next (s.takeFault (.outOfBounds .register rB.toNat))) ∧
    (rA.toNat < 8 → rB.toNat < 8 → s.pc = 0xFD →
      s.onRegisterPair rA rB effect = .next (s.takeFault (.outOfBounds .memory 256))) := by
  refine ⟨fun hA => ?_, fun hA hB => ?_, fun hA hB hpc => ?_⟩
  · simp [State.onRegisterPair, regIdx_error hA]
  · simp [State.onRegisterPair, regIdx_ok hA, regIdx_error hB]
  · simp [State.onRegisterPair, regIdx_ok hA, regIdx_ok hB, s.seqNext_three_error hpc]

/-! ### MUL and ADD -/

@[simp] theorem mulByte_toNat (a b : Byte) : (mulByte a b).toNat = a.toNat * b.toNat % 256 := by simp [mulByte]

@[simp] theorem addByte_toNat (a b : Byte) : (addByte a b).toNat = (a.toNat + b.toNat) % 256 := by simp [addByte]

/-- Settles O29: the product is `mulByte`'s; completion and faults are those of every instruction on two registers. -/
theorem mulWritesTheLowByteOfTheProduct : Obligations.MulWritesTheLowByteOfTheProduct := by
  intro rA rB s
  rw [exec_mul_eq_onRegisterPair]
  exact ⟨fun hA hB hpc => ⟨_, mulByte_toNat _ _, State.onRegisterPair_ok _ hA hB hpc⟩, s.onRegisterPair_faults rA rB _⟩

/-- Settles O30: the sum is `addByte`'s; completion and faults are those of every instruction on two registers. -/
theorem addWritesTheSumModulo256 : Obligations.AddWritesTheSumModulo256 := by
  intro rA rB s
  rw [exec_add_eq_onRegisterPair]
  exact ⟨fun hA hB hpc => ⟨_, addByte_toNat _ _, State.onRegisterPair_ok _ hA hB hpc⟩, s.onRegisterPair_faults rA rB _⟩

/-! ### CMP -/

/-- Settles O31: the flag is `compareFlag`'s; completion and faults are those of every instruction on two registers. -/
theorem cmpRecordsTheUnsignedOrder : Obligations.CmpRecordsTheUnsignedOrder := by
  intro rA rB s
  rw [exec_cmp_eq_onRegisterPair]
  exact ⟨fun hA hB hpc => ⟨_, compareFlag_equal, compareFlag_greater, compareFlag_less, compareFlag_ne_unset _ _,
      State.onRegisterPair_ok _ hA hB hpc⟩, s.onRegisterPair_faults rA rB _⟩

end Sys2Proof.Machine
end

section
/-! PROOFS. JMP (spec 44_control.md R83). -/

namespace Sys2Proof.Machine

/-- JMP has no other check than its register operand's, since every register value is an address (R33, R83). -/
theorem execJmp_ok {rA : Byte} (s : State) (hA : rA.toNat < 8) :
    execJmp rA s = .next (s.setPc (s.reg ⟨rA.toNat, hA⟩)) := by
  simp [execJmp, regIdx_ok hA]

theorem execJmp_register_fault {rA : Byte} (s : State) (hA : 8 ≤ rA.toNat) :
    execJmp rA s = .next (s.takeFault (.outOfBounds .register rA.toNat)) := by
  simp [execJmp, regIdx_error hA]

/-- Settles O36: JMP's completion for an existing register and its one fault for any other operand byte. -/
theorem jmpGoesToTheRegister : Obligations.JmpGoesToTheRegister :=
  fun _ s => ⟨execJmp_ok s, execJmp_register_fault s⟩

end Sys2Proof.Machine
end

section
/-! PROOFS. The decoder and the encoder are inverse to each other (spec 30_encoding.md R50 to R58). -/

namespace Sys2Proof

/-- A number below 256 survives being made a byte. -/
theorem toNat_ofNat_byte {n : Nat} (h : n < 256) : (BitVec.ofNat 8 n).toNat = n := by
  rw [BitVec.toNat_ofNat, Nat.mod_eq_of_lt h]

theorem Laws.EncodingShape.holds (i : Instr) : Laws.EncodingShape.Statement i := by
  cases i with
  | hlt => exact hlt
  | ldi => exact ldi _ _
  | prn => exact prn _
  | mul => exact mul _ _
  | add => exact add _ _
  | cmp => exact cmp _ _
  | push => exact push _
  | pop => exact pop _
  | call => exact call _
  | ret => exact ret
  | jmp => exact jmp _
  | jeq => exact jeq _
  | jne => exact jne _

theorem Instr.length_operands (i : Instr) : i.operands.length = i.op.format.operandCount :=
  (Laws.EncodingShape.holds i).1

theorem Instr.assemble_operands (i : Instr) (y z : Byte) :
    i.op.assemble ((i.operands ++ [y, z]).getD 0 0) ((i.operands ++ [y, z]).getD 1 0) = i :=
  (Laws.EncodingShape.holds i).2.2 y z

/-- Every format has at most two operands (R52), so the three bytes the decoder takes lie in the encoding and the two bytes
behind it. -/
theorem decodeBytes_encode_append (m : OpcodeMap) (i : Instr) (y z : Byte) (rest : List Byte) :
    decodeBytes m (encode m i ++ y :: z :: rest) =
      decode m (m.byte i.op) ((i.operands ++ [y, z]).getD 0 0) ((i.operands ++ [y, z]).getD 1 0) := by
  cases i <;> rfl

theorem decode_of_decodeOpcode {m : OpcodeMap} {ir : Byte} {op : Op} (h : decodeOpcode m ir = some op) (opA opB : Byte) :
    decode m ir opA opB = .ok (op.assemble opA opB) := by
  simp [decode, h]

/-- Settles O10: the opcode byte gives back the operation, since the map is legal, and the operand bytes the instruction. -/
theorem decodeOfEncodeIsTheInstruction : Obligations.DecodeOfEncodeIsTheInstruction := by
  intro m i y z rest hm
  have hop : decodeOpcode m (m.byte i.op) = some i.op := (decodeOpcode_eq_some_iff hm).mpr rfl
  rw [decodeBytes_encode_append, decode_of_decodeOpcode hop, i.assemble_operands]

/-- What a decoded instruction is: its opcode byte's operation with the operand bytes its format uses. -/
theorem decode_ok {m : OpcodeMap} {ir opA opB : Byte} {i : Instr} (h : decode m ir opA opB = .ok i) :
    decodeOpcode m ir = some i.op ∧ i = i.op.assemble opA opB := by
  rcases decode_cases m ir opA opB with ⟨op, hop, hd⟩ | ⟨-, hd⟩
  · obtain rfl : op.assemble opA opB = i := Except.ok.inj (hd.symm.trans h)
    simpa using hop
  · cases hd.symm.trans h

theorem Op.operands_assemble (op : Op) (opA opB : Byte) :
    (op.assemble opA opB).operands = [opA, opB].take op.format.operandCount := by
  cases op <;> rfl

/-- Settles O11: the opcode byte is the map's for the operation found, and the operands are the bytes attached to it. -/
theorem encodeOfDecodeIsTheBytes : Obligations.EncodeOfDecodeIsTheBytes := by
  intro m ir opA opB i h
  obtain ⟨hop, hi⟩ := decode_ok h
  have hoperands : i.operands = [opA, opB].take i.op.format.operandCount := by rw [hi, Op.operands_assemble, Op.assemble_op]
  rw [encode, decodeOpcode_byte hop, hoperands, Format.length, Nat.add_comm, List.take_succ_cons]

theorem OpcodeMap.operandCount_of_wellFormed {m : OpcodeMap} (hm : m.wellFormed = true) (op : Op) :
    (m.byte op).toNat / 64 = op.format.operandCount := by
  obtain ⟨-, hcount⟩ := Bool.and_eq_true_iff.mp hm
  simpa using List.all_eq_true.mp hcount op op.mem_all

theorem Format.operandCount_le_two (f : Format) : f.operandCount ≤ 2 := by cases f <;> decide

theorem toNat_highBits (b : Byte) : (b.extractLsb' 6 2).toNat = b.toNat / 64 := by
  have hb := b.isLt
  rw [BitVec.extractLsb'_toNat, Nat.shiftRight_eq_div_pow]
  omega

/-- Settles O12: the high bits of every opcode in a legal map are its operand count, which is at most two. -/
theorem highOpcodeBitsGiveTheOperandCount : Obligations.HighOpcodeBitsGiveTheOperandCount := by
  intro m ir opA opB i hm h
  obtain ⟨hop, -⟩ := decode_ok h
  have hcount : (ir.extractLsb' 6 2).toNat = i.operands.length := by
    rw [toNat_highBits, ← decodeOpcode_byte hop, OpcodeMap.operandCount_of_wellFormed hm, i.length_operands]
  refine ⟨hcount, fun h3 => ?_, ?_⟩
  · have hle : (ir.extractLsb' 6 2).toNat ≤ 2 := by
      rw [hcount, i.length_operands]; exact i.op.format.operandCount_le_two
    rw [h3] at hle
    exact absurd hle (by decide)
  · rw [hcount, encode, List.length_cons, Nat.add_comm]

/-- Settles O13: the default map, evaluated on the words of the examples. -/
theorem exampleWordsDecode : Obligations.ExampleWordsDecode := by
  unfold Obligations.ExampleWordsDecode
  decide

end Sys2Proof
end

section
/-! PROOFS. Canonical memories, and loading an image (spec 20_memory.md; 70_reset_and_hazards.md R106). -/

namespace Sys2Proof.Machine

/-! ### Canonical memories are determined by their bytes -/

/-- A listed cell is the one its address reads as: no earlier cell has that address. -/
theorem Memory.readByte_of_mem {m : Memory} (h : m.Pairwise (fun c d => c.1 < d.1)) {c : Host.Cell} (hc : c ∈ m) :
    m.readByte c.1 = c.2 := by
  induction m with
  | nil => cases hc
  | cons d m ih =>
    obtain ⟨hd, hm⟩ := List.pairwise_cons.mp h
    rcases List.mem_cons.mp hc with rfl | hc
    · simp
    · have hne : d.1 ≠ c.1 := (hd c hc).ne
      simp [hne, ih hm hc]

/-- An address that does not read as the unlisted byte is listed. -/
theorem Memory.mem_of_readByte {m : Memory} {a : Nat} (h : m.readByte a ≠ Memory.unlisted) : (a, m.readByte a) ∈ m := by
  induction m with
  | nil => exact absurd rfl h
  | cons c m ih =>
    by_cases hc : c.1 = a
    · simp [← hc]
    · simp only [Memory.readByte_cons, hc, if_false] at h ⊢
      exact List.mem_cons_of_mem _ (ih h)

/-- The cells of a canonical memory are the addresses that exist and do not read as the unlisted byte. -/
theorem Memory.mem_iff {m : Memory} (h : m.wf) (c : Host.Cell) :
    c ∈ m ↔ c.1 < 256 ∧ c.2 ≠ Memory.unlisted ∧ m.readByte c.1 = c.2 := by
  obtain ⟨hcells, hsorted⟩ := h
  constructor
  · intro hc
    obtain ⟨haddr, hbyte⟩ := hcells c hc
    exact ⟨haddr, hbyte, Memory.readByte_of_mem hsorted hc⟩
  · rintro ⟨-, hbyte, hread⟩
    have hmem : (c.1, m.readByte c.1) ∈ m := Memory.mem_of_readByte (hread ▸ hbyte)
    rwa [hread] at hmem

/-- Settles O8: the two lists have the same cells, and both are sorted by address. -/
theorem canonicalMemoriesThatReadAlikeAreEqual : Obligations.CanonicalMemoriesThatReadAlikeAreEqual := by
  intro m n hm hn hread
  have hirrefl : Std.Irrefl (fun c d : Host.Cell => c.1 < d.1) := ⟨fun c => Nat.lt_irrefl c.1⟩
  have hasymm : Std.Asymm (fun c d : Host.Cell => c.1 < d.1) := ⟨fun _ _ => Nat.lt_asymm⟩
  refine List.Pairwise.eq_of_mem_iff hm.2 hn.2 fun c => ?_
  rw [Memory.mem_iff hm, Memory.mem_iff hn]
  exact and_congr_right fun haddr => by rw [hread c.1 haddr]

/-! ### Loading -/

@[simp] theorem State.resetWith_mem (c : Config) : (State.resetWith c).mem = [] := rfl

theorem State.memWrite_ofNat (s : State) {a : Nat} (h : a < 256) (v : Byte) :
    s.memWrite (a : Int) v = .ok { s with mem := s.mem.writeByte a v } := by
  have hwrite := s.memWrite_byte (BitVec.ofNat 8 a) v
  rwa [State.storeByte, toNat_ofNat_byte h] at hwrite

/-- The loader lays the image in memory as long as it fits, and changes nothing else. -/
theorem loadFrom_ok {image : List Byte} {a : Nat} (s : State) (h : a + image.length ≤ 256) :
    loadFrom a image s = .ok { s with mem := s.mem.place a image } := by
  induction image generalizing a s with
  | nil => rfl
  | cons b bs ih =>
    rw [List.length_cons] at h
    have ha : a < 256 := by omega
    rw [loadFrom, s.memWrite_ofNat ha, ok_bind, ih _ (by omega), Memory.place, if_pos ha]

/-- An image that does not fit fails at the first address that does not exist. -/
theorem loadFrom_error {image : List Byte} {a : Nat} (s : State) (ha : a ≤ 256) (h : 256 < a + image.length) :
    loadFrom a image s = .error (.outOfBounds .memory 256) := by
  induction image generalizing a s with
  | nil => rw [List.length_nil] at h; omega
  | cons b bs ih =>
    rw [List.length_cons] at h
    rcases ha.lt_or_eq with hlt | rfl
    · rw [loadFrom, s.memWrite_ofNat hlt, ok_bind, ih _ hlt (by omega)]
    · rw [loadFrom, s.memWrite_error b (by decide), error_bind]
      rfl

/-- Settles O3: an image that fits is laid at address 0 of the empty memory, a longer one runs into address 256. -/
theorem launchLoadsImageFromAddressZero : Obligations.LaunchLoadsImageFromAddressZero := by
  refine fun c image => ⟨fun h => ⟨_, loadFrom_ok _ (by omega), fun a ha => ?_, Memory.wf_place _ _ Memory.wf_nil, rfl⟩,
    fun h => loadFrom_error _ (by omega) (by omega)⟩
  rw [State.resetWith_mem, Memory.readByte_place [] image 0 a ha]
  by_cases hin : a < image.length <;> simp [hin, Memory.unlisted]

end Sys2Proof.Machine
end

section
/-! PROOFS. HLT, PRN and the stack instructions: completion, frame and faults (spec 41_halt_load_print.md, 43_stack.md,
44_control.md R81, R82). -/

namespace Sys2Proof.Machine

/-! ### The faults the instructions share -/

/-- An instruction that begins with its register operand raises there, whatever would follow (R53). -/
theorem State.conclude_register_fault (s : State) {rA : Byte} (hA : 8 ≤ rA.toNat) (rest : Fin 8 → Except Trap State) :
    s.conclude (regIdx rA >>= rest) = .next (s.takeFault (.outOfBounds .register rA.toNat)) := by
  rw [regIdx_error hA, error_bind, State.conclude_error]

/-- Stack overflow, alike for PUSH and CALL: checked behind the register operand and before anything else (R78, R81). -/
theorem State.conclude_stack_overflow {s : State} {rA : Byte} (hA : rA.toNat < 8) (hsp : s.sp = 0)
    (rest : Fin 8 → Byte → Except Trap State) :
    s.conclude (do let r ← regIdx rA; let a ← s.pushSlot; rest r a) =
      .next (s.takeFault (.outOfBounds .memory (-1))) := by
  rw [regIdx_ok hA, ok_bind, s.pushSlot_error hsp, error_bind, State.conclude_error]

/-! ### HLT and PRN -/

/-- Settles O26: HLT's meaning is the update of status. -/
theorem hltStopsAndChangesNothingElse : Obligations.HltStopsAndChangesNothingElse := fun _ => rfl

theorem execPrn_ok {rA : Byte} {s : State} (hA : rA.toNat < 8) (hpc : s.pc.toNat ≤ 253) :
    execPrn rA s = .next ((s.output (s.reg ⟨rA.toNat, hA⟩)).setPc (BitVec.ofNat 8 (s.pc.toNat + 2))) := by
  simp [execPrn, regIdx_ok hA, s.seqNext_ok (w := 2) (by omega)]

/-- Settles O28: PRN's completion and its register fault. -/
theorem prnAppendsTheRegisterToTheOutput : Obligations.PrnAppendsTheRegisterToTheOutput :=
  fun _ s => ⟨execPrn_ok, fun hA => s.conclude_register_fault hA _⟩

/-! ### PUSH and CALL -/

/-- The byte sp - 1: the address a push stores at while the stack has not overflowed. -/
def State.pushAddress (s : State) : Byte := BitVec.ofNat 8 (s.sp.toNat - 1)

theorem State.pushSlot_eq_pushAddress {s : State} (hsp : 0 < s.sp.toNat) : s.pushSlot = .ok s.pushAddress :=
  s.pushSlot_ok hsp

theorem State.pushAddress_toNat {s : State} (hsp : 0 < s.sp.toNat) : s.pushAddress.toNat + 1 = s.sp.toNat := by
  have hlt := s.sp.isLt
  rw [State.pushAddress, toNat_ofNat_byte (by omega), Nat.sub_add_cancel hsp]

/-- What PUSH and CALL leave behind: `v` at sp - 1, sp there, and pc at `p`. -/
def State.pushed (s : State) (v p : Byte) : State := ((s.storeByte s.pushAddress v).setSp s.pushAddress).setPc p

@[simp] theorem State.pushed_mem (s : State) (v p : Byte) :
    (s.pushed v p).mem = s.mem.writeByte s.pushAddress.toNat v := rfl
@[simp] theorem State.pushed_pc (s : State) (v p : Byte) : (s.pushed v p).pc = p := rfl
@[simp] theorem State.pushed_sp (s : State) (v p : Byte) : (s.pushed v p).sp = s.pushAddress := rfl

/-- The frame of a push: nothing but memory, sp and pc. -/
theorem State.pushed_frame (s : State) (v p : Byte) :
    s.pushed v p = { s with mem := (s.pushed v p).mem, sp := s.pushAddress, pc := p } := rfl

theorem execPush_ok {rA : Byte} {s : State} (hA : rA.toNat < 8) (hsp : 0 < s.sp.toNat) (hpc : s.pc.toNat ≤ 253) :
    execPush rA s = .next (s.pushed (s.reg ⟨rA.toNat, hA⟩) (BitVec.ofNat 8 (s.pc.toNat + 2))) := by
  simp [execPush, State.pushed, regIdx_ok hA, State.pushSlot_eq_pushAddress hsp, s.seqNext_ok (w := 2) (by omega)]

theorem execCall_ok {rA : Byte} {s : State} (hA : rA.toNat < 8) (hsp : 0 < s.sp.toNat) (hpc : s.pc.toNat ≤ 253) :
    execCall rA s = .next (s.pushed (BitVec.ofNat 8 (s.pc.toNat + 2)) (s.reg ⟨rA.toNat, hA⟩)) := by
  simp [execCall, State.pushed, regIdx_ok hA, State.pushSlot_eq_pushAddress hsp, s.seqNext_ok (w := 2) (by omega)]

/-- Settles O32: PUSH completes in the pushed state, or raises at its first or its second check. -/
theorem pushStoresTheRegisterBelowSp : Obligations.PushStoresTheRegisterBelowSp := by
  refine fun rA s => ⟨fun hA hsp hpc => ?_, fun hA => s.conclude_register_fault hA _,
    fun hA hsp => State.conclude_stack_overflow hA hsp _⟩
  exact ⟨_, _, State.pushSlot_eq_pushAddress hsp, State.pushAddress_toNat hsp, execPush_ok hA hsp hpc,
    Memory.readByte_writeByte_self _ _ _, fun _ hb => Memory.readByte_writeByte_ne _ _ hb, s.pushed_frame _ _⟩

/-- Settles O34: CALL completes in the pushed state, or raises at its first or its second check. -/
theorem callPushesTheReturnAddressAndJumps : Obligations.CallPushesTheReturnAddressAndJumps := by
  refine fun rA s => ⟨fun hA hsp hpc => ?_, fun hA => s.conclude_register_fault hA _,
    fun hA hsp => State.conclude_stack_overflow hA hsp _⟩
  refine ⟨_, _, State.pushSlot_eq_pushAddress hsp, State.pushAddress_toNat hsp, execCall_ok hA hsp hpc, ?_,
    fun _ hb => Memory.readByte_writeByte_ne _ _ hb, s.pushed_frame _ _⟩
  rw [State.pushed_mem, Memory.readByte_writeByte_self, toNat_ofNat_byte (by omega)]

/-! ### POP and RET -/

theorem execPop_ok {rA : Byte} {s : State} (hA : rA.toNat < 8) (hsp : s.sp.toNat < 255) (hpc : s.pc.toNat ≤ 253) :
    execPop rA s = .next (((s.setReg ⟨rA.toNat, hA⟩ (s.mem.readByte s.sp.toNat)).setSp
      (BitVec.ofNat 8 (s.sp.toNat + 1))).setPc (BitVec.ofNat 8 (s.pc.toNat + 2))) := by
  simp [execPop, regIdx_ok hA, s.popSlot_ok hsp, s.seqNext_ok (w := 2) (by omega)]

theorem execPop_stack_underflow {rA : Byte} {s : State} (hA : rA.toNat < 8) (hsp : s.sp = 255) :
    execPop rA s = .next (s.takeFault (.outOfBounds .memory 256)) := by
  rw [execPop, regIdx_ok hA, ok_bind, State.memRead_byte, ok_bind, s.popSlot_error hsp, error_bind, State.conclude_error]

/-- Settles O33: POP's completion and its two faults, in the order of its checks. -/
theorem popLoadsTheByteAtSp : Obligations.PopLoadsTheByteAtSp :=
  fun _ s => ⟨execPop_ok, fun hA => s.conclude_register_fault hA _, execPop_stack_underflow⟩

theorem execRet_ok {s : State} (hsp : s.sp.toNat < 255) :
    execRet s = .next ((s.setSp (BitVec.ofNat 8 (s.sp.toNat + 1))).setPc (s.mem.readByte s.sp.toNat)) := by
  simp [execRet, s.popSlot_ok hsp]

theorem execRet_stack_underflow {s : State} (hsp : s.sp = 255) :
    execRet s = .next (s.takeFault (.outOfBounds .memory 256)) := by
  rw [execRet, State.memRead_byte, ok_bind, s.popSlot_error hsp, error_bind, State.conclude_error]

/-- Settles O35: RET's completion and its one fault. -/
theorem retPopsTheProgramCounter : Obligations.RetPopsTheProgramCounter :=
  fun _ => ⟨execRet_ok, execRet_stack_underflow⟩

/-! ### Round trips -/

/-- Settles O46: POP reads back the byte PUSH stored and puts it where it came from; sp and pc return by arithmetic. -/
theorem pushThenPopRoundTrips : Obligations.PushThenPopRoundTrips := by
  intro rA s hA hsp hpc
  have hpc2 : (BitVec.ofNat 8 (s.pc.toNat + 2)).toNat = s.pc.toNat + 2 := toNat_ofNat_byte (by omega)
  have hsp1 := State.pushAddress_toNat hsp
  have hlt := s.sp.isLt
  refine ⟨_, _, execPush_ok hA hsp (by omega), execPop_ok hA ?_ ?_, ?_⟩
  · rw [State.pushed_sp]; omega
  · rw [State.pushed_pc]; omega
  · simp [State.pushed, State.storeByte, State.setReg, State.setSp, State.setPc, State.reg, hsp1, hpc2]

/-- Settles O47: RET reads the byte CALL stored and moves sp back by the one CALL moved it. -/
theorem callThenRetReturnsBehindTheCall : Obligations.CallThenRetReturnsBehindTheCall := by
  intro rA s hA hsp hpc
  refine ⟨_, execCall_ok hA hsp hpc, fun u hu hbyte => ?_⟩
  have hsp1 := State.pushAddress_toNat hsp
  have hlt := s.sp.isLt
  rw [State.pushed_sp] at hu hbyte
  rw [State.pushed_mem, Memory.readByte_writeByte_self] at hbyte
  have hret := execRet_ok (s := u) (by rw [hu]; omega)
  rw [hbyte, hu, hsp1, BitVec.ofNat_toNat, BitVec.setWidth_eq] at hret
  exact hret

end Sys2Proof.Machine
end

section
/-! PROOFS. JEQ and JNE (spec 44_control.md R84, R85; 10_state.md R25). -/

namespace Sys2Proof.Machine

/-! ### The flag test and the branch -/

theorem State.flagIsEqual_of_equal {s : State} (h : s.fl = .equal) : s.flagIsEqual = .ok true := by
  simp [State.flagIsEqual, h]

/-- GREATER and LESS are not EQUAL, and neither is UNSET where the policy lets it be tested. -/
theorem State.flagIsEqual_of_not_equal {s : State}
    (h : s.fl = .greater ∨ s.fl = .less ∨ (s.fl = .unset ∧ s.cfg.unsetFlagPolicy = .notEqual)) :
    s.flagIsEqual = .ok false := by
  rcases h with h | h | ⟨h, hp⟩
  · simp [State.flagIsEqual, h]
  · simp [State.flagIsEqual, h]
  · simp [State.flagIsEqual, h, hp]

/-- A test of UNSET under the policy FAULT raises behind the register operand and before the branch (R25). -/
theorem State.conclude_flag_fault {s : State} {rA : Byte} (hA : rA.toNat < 8) (hfl : s.fl = .unset)
    (hpolicy : s.cfg.unsetFlagPolicy = .fault) (rest : Fin 8 → Bool → Except Trap State) :
    s.conclude (do let r ← regIdx rA; let eq ← s.flagIsEqual; rest r eq) = .next (s.takeFault .undefinedFlag) := by
  rw [regIdx_ok hA, ok_bind, State.flagIsEqual, if_pos ⟨hfl, hpolicy⟩, error_bind, State.conclude_error]

theorem State.branch_taken (s : State) (r : Fin 8) : s.branch r true = .ok (s.setPc (s.reg r)) := rfl

theorem State.branch_not_taken {s : State} (r : Fin 8) (hpc : s.pc.toNat ≤ 253) :
    s.branch r false = .ok (s.setPc (BitVec.ofNat 8 (s.pc.toNat + 2))) := by
  simp [State.branch, s.seqNext_ok (w := 2) (by omega)]

/-! ### The two instructions -/

theorem execJeq_of_flag {rA : Byte} {s : State} {eq : Bool} (hA : rA.toNat < 8) (hflag : s.flagIsEqual = .ok eq) :
    execJeq rA s = s.conclude (s.branch ⟨rA.toNat, hA⟩ eq) := by
  rw [execJeq, regIdx_ok hA, ok_bind, hflag, ok_bind]

theorem execJne_of_flag {rA : Byte} {s : State} {eq : Bool} (hA : rA.toNat < 8) (hflag : s.flagIsEqual = .ok eq) :
    execJne rA s = s.conclude (s.branch ⟨rA.toNat, hA⟩ (!eq)) := by
  rw [execJne, regIdx_ok hA, ok_bind, hflag, ok_bind]

/-- Settles O37: JEQ branches by the flag test's answer, or raises at the operand or at the test. -/
theorem jeqJumpsExactlyOnEqual : Obligations.JeqJumpsExactlyOnEqual := by
  refine fun rA s => ⟨fun hA hfl => ?_, fun hA hpc hfl => ?_, fun hA => s.conclude_register_fault hA _,
    fun hA hfl hpolicy => State.conclude_flag_fault hA hfl hpolicy _⟩
  · rw [exec, execJeq_of_flag hA (State.flagIsEqual_of_equal hfl), s.branch_taken]; rfl
  · rw [exec, execJeq_of_flag hA (State.flagIsEqual_of_not_equal hfl), State.branch_not_taken _ hpc]; rfl

/-- Settles O38: JNE branches by the negation of the flag test's answer, or raises at the operand or at the test. -/
theorem jneJumpsExactlyUnlessEqual : Obligations.JneJumpsExactlyUnlessEqual := by
  refine fun rA s => ⟨fun hA hfl => ?_, fun hA hpc hfl => ?_, fun hA => s.conclude_register_fault hA _,
    fun hA hfl hpolicy => State.conclude_flag_fault hA hfl hpolicy _⟩
  · rw [exec, execJne_of_flag hA (State.flagIsEqual_of_not_equal hfl), Bool.not_false, s.branch_taken]; rfl
  · rw [exec, execJne_of_flag hA (State.flagIsEqual_of_equal hfl), Bool.not_true, State.branch_not_taken _ hpc]; rfl

end Sys2Proof.Machine
end

section
/-! PROOFS. What holds of every instruction: its register operands are checked first, and what it changes (spec 10_state.md R15,
R18, R20; 20_memory.md R36; 30_encoding.md R53). -/

namespace Sys2Proof.Machine

/-! ### Register operands -/

theorem find_register_single {rA b : Byte} (h : [rA].find? (fun c => decide (8 ≤ c.toNat)) = some b) :
    8 ≤ rA.toNat ∧ rA = b := by
  have hrange : 8 ≤ b.toNat := by simpa using List.find?_some h
  obtain rfl : b = rA := List.mem_singleton.mp (List.mem_of_find?_eq_some h)
  exact ⟨hrange, rfl⟩

/-- The first register operand byte above 7 is the first operand, or the second behind a first that names a register. -/
theorem find_register_pair {rA rB b : Byte} (h : [rA, rB].find? (fun c => decide (8 ≤ c.toNat)) = some b) :
    (8 ≤ rA.toNat ∧ rA = b) ∨ (rA.toNat < 8 ∧ 8 ≤ rB.toNat ∧ rB = b) := by
  rcases Nat.lt_or_ge rA.toNat 8 with hA | hA
  · rw [List.find?_cons_of_neg (by simpa using hA)] at h
    exact .inr ⟨hA, find_register_single h⟩
  · rw [List.find?_cons_of_pos (by simpa using hA)] at h
    exact .inl ⟨hA, Option.some.inj h⟩

/-- The two register faults of MUL, ADD and CMP as one: the operand that is found raises. -/
theorem State.onRegisterPair_register_fault {rA rB b : Byte} (s : State) (effect : Fin 8 → Fin 8 → State)
    (h : [rA, rB].find? (fun c => decide (8 ≤ c.toNat)) = some b) :
    s.onRegisterPair rA rB effect = .next (s.takeFault (.outOfBounds .register b.toNat)) := by
  obtain ⟨faultA, faultB, -⟩ := s.onRegisterPair_faults rA rB effect
  rcases find_register_pair h with ⟨hA, rfl⟩ | ⟨hA, hB, rfl⟩
  · exact faultA hA
  · exact faultB hA hB

/-- The register fault of the instructions with one register operand. -/
theorem State.conclude_find_register_fault {rA b : Byte} (s : State) (rest : Fin 8 → Except Trap State)
    (h : [rA].find? (fun c => decide (8 ≤ c.toNat)) = some b) :
    s.conclude (regIdx rA >>= rest) = .next (s.takeFault (.outOfBounds .register b.toNat)) := by
  obtain ⟨hA, rfl⟩ := find_register_single h
  exact s.conclude_register_fault hA rest

/-- The first register operand byte above 7 raises, whatever the instruction (R53). -/
theorem exec_register_fault {i : Instr} {b : Byte} (s : State)
    (h : i.registerOperands.find? (fun c => decide (8 ≤ c.toNat)) = some b) :
    exec i s = .next (s.takeFault (.outOfBounds .register b.toNat)) := by
  cases i with
  | hlt | ret => cases h
  | ldi | prn | push | pop | call | jmp | jeq | jne => exact s.conclude_find_register_fault _ h
  | mul | add | cmp => exact s.onRegisterPair_register_fault _ h

/-- Settles O39, by `exec_register_fault`: a taken fault changes status only. -/
theorem registerOperandsAreCheckedFirst : Obligations.RegisterOperandsAreCheckedFirst :=
  fun _ s _ h => exec_register_fault s h

/-! ### Completion -/

/-- What an instruction does to `s` when it completes: the end states of R69 to R85, one constructor per kind of effect. -/
inductive Completes (s : State) : Instr → State → Prop
  | halts : Completes s .hlt (s.setStatus .halted)
  | outputs {rA : Byte} (r : Fin 8) (hn : s.pc.toNat + 2 ≤ 255) :
      Completes s (.prn rA) ((s.output (s.reg r)).setPc (BitVec.ofNat 8 (s.pc.toNat + 2)))
  | writesRegister {i : Instr} (r : Fin 8) (v : Byte) (hi : i.op ∈ [Op.ldi, .mul, .add])
      (hr : i.operands.head? = some (BitVec.ofNat 8 r.val)) (hn : s.pc.toNat + 3 ≤ 255) :
      Completes s i ((s.setReg r v).setPc (BitVec.ofNat 8 (s.pc.toNat + 3)))
  | compares {rA rB : Byte} (f : Flag) (hn : s.pc.toNat + 3 ≤ 255) :
      Completes s (.cmp rA rB) ((s.setFl f).setPc (BitVec.ofNat 8 (s.pc.toNat + 3)))
  | pushes {rA : Byte} (v : Byte) (hsp : 0 < s.sp.toNat) (hn : s.pc.toNat + 2 ≤ 255) :
      Completes s (.push rA) (s.pushed v (BitVec.ofNat 8 (s.pc.toNat + 2)))
  | calls {rA : Byte} (r : Fin 8) (v : Byte) (hr : rA = BitVec.ofNat 8 r.val) (hsp : 0 < s.sp.toNat) :
      Completes s (.call rA) (s.pushed v (s.reg r))
  | pops {rA : Byte} (r : Fin 8) (v : Byte) (hr : rA = BitVec.ofNat 8 r.val) (hsp : s.sp.toNat < 255)
      (hn : s.pc.toNat + 2 ≤ 255) :
      Completes s (.pop rA)
        (((s.setReg r v).setSp (BitVec.ofNat 8 (s.sp.toNat + 1))).setPc (BitVec.ofNat 8 (s.pc.toNat + 2)))
  | returns (hsp : s.sp.toNat < 255) :
      Completes s .ret ((s.setSp (BitVec.ofNat 8 (s.sp.toNat + 1))).setPc (s.mem.readByte s.sp.toNat))
  | jumps {i : Instr} (r : Fin 8) (hi : i.op ∈ [Op.jmp, .jeq, .jne]) (hr : i.operands = [BitVec.ofNat 8 r.val]) :
      Completes s i (s.setPc (s.reg r))
  | fallsThrough {i : Instr} (hi : i.op ∈ [Op.jeq, .jne]) (hn : s.pc.toNat + 2 ≤ 255) :
      Completes s i (s.setPc (BitVec.ofNat 8 (s.pc.toNat + 2)))

/-- A register operand is the number of its register. -/
theorem eq_ofNat_registerNumber {rA : Byte} (hA : rA.toNat < 8) : rA = BitVec.ofNat 8 (⟨rA.toNat, hA⟩ : Fin 8).val := by simp

/-- Both ends of a conditional jump, whatever decides between them. -/
theorem Completes.of_branch {i : Instr} {s t : State} {r : Fin 8} {taken notTaken : Prop} (hi : i.op ∈ [Op.jeq, .jne])
    (hr : i.operands = [BitVec.ofNat 8 r.val])
    (h : (taken ∧ t = s.setPc (s.reg r)) ∨
      (notTaken ∧ s.pc.toNat + 2 ≤ 255 ∧ t = s.setPc (BitVec.ofNat 8 (s.pc.toNat + 2)))) : Completes s i t := by
  rcases h with ⟨-, rfl⟩ | ⟨-, hn, rfl⟩
  · exact .jumps r (List.mem_cons_of_mem _ hi) hr
  · exact .fallsThrough hi hn

/-- What every instruction can do, said once: take a fault from the state it began in, or complete. -/
theorem exec_cases {i : Instr} {s t : State} (h : exec i s = .next t) : FaultFrom s t ∨ Completes s i t := by
  cases i with
  | hlt => cases execHlt_cases h; exact .inr .halts
  | ldi => exact (execLdi_cases h).imp_right fun ⟨hA, hn, ht⟩ =>
      ht ▸ .writesRegister _ _ (by simp [Instr.op]) (congrArg some (eq_ofNat_registerNumber hA)) hn
  | prn => exact (execPrn_cases h).imp_right fun ⟨_, hn, ht⟩ => ht ▸ .outputs _ hn
  | mul | add => exact (aluWrite_cases h).imp_right fun ⟨hA, _, hn, ht⟩ =>
      ht ▸ .writesRegister _ _ (by simp [Instr.op]) (congrArg some (eq_ofNat_registerNumber hA)) hn
  | cmp => exact (execCmp_cases h).imp_right fun ⟨_, _, hn, ht⟩ => ht ▸ .compares _ hn
  | push => exact (execPush_cases h).imp_right fun ⟨_, hsp, hn, ht⟩ => ht ▸ .pushes _ hsp hn
  | pop => exact (execPop_cases h).imp_right fun ⟨hA, hsp, hn, ht⟩ => ht ▸ .pops _ _ (eq_ofNat_registerNumber hA) hsp hn
  | call => exact (execCall_cases h).imp_right fun ⟨hA, hsp, _, ht⟩ => ht ▸ .calls _ _ (eq_ofNat_registerNumber hA) hsp
  | ret => exact (execRet_cases h).imp_right fun ⟨hsp, ht⟩ => ht ▸ .returns hsp
  | jmp => exact (execJmp_cases h).imp_right fun ⟨hA, ht⟩ =>
      ht ▸ .jumps _ (by simp [Instr.op]) (congrArg ([·]) (eq_ofNat_registerNumber hA))
  | jeq => exact (execJeq_cases h).imp_right fun ⟨hA, _, hbranch⟩ =>
      .of_branch (by simp [Instr.op]) (congrArg ([·]) (eq_ofNat_registerNumber hA)) hbranch
  | jne => exact (execJne_cases h).imp_right fun ⟨hA, _, hbranch⟩ =>
      .of_branch (by simp [Instr.op]) (congrArg ([·]) (eq_ofNat_registerNumber hA)) hbranch

/-! ### What an instruction that completes changes -/

theorem State.setReg_x_ne {s : State} {r q : Fin 8} {v : Byte} (h : (s.setReg r v).x[q.val] ≠ s.x[q.val]) : r = q := by
  by_contra hrq
  exact h ((s.setReg_reg r q v).trans (if_neg (Ne.symm hrq)))

/-- Settles O41: a taken fault keeps every register, and among the completions two kinds write one. -/
theorem onlyDestinationRegistersChange : Obligations.OnlyDestinationRegistersChange := by
  intro i s t q h hne
  rcases exec_cases h with ⟨k, rfl⟩ | hc
  · exact absurd rfl hne
  cases hc with
  | writesRegister r v hi hr =>
    obtain rfl : r = q := State.setReg_x_ne hne
    exact ⟨by simp at hi ⊢; tauto, hr⟩
  | pops r v hr =>
    obtain rfl : r = q := State.setReg_x_ne hne
    exact ⟨by simp [Instr.op], congrArg some hr⟩
  | _ => exact absurd rfl hne

/-- Settles O42: a taken fault keeps memory, and among the completions two kinds write it, at sp - 1. -/
theorem onlyPushAndCallChangeMemory : Obligations.OnlyPushAndCallChangeMemory := by
  intro i s t a h hne
  have atPushAddress {v p : Byte} (hsp : 0 < s.sp.toNat) (hne : (s.pushed v p).mem.readByte a ≠ s.mem.readByte a) :
      a + 1 = s.sp.toNat := by
    have ha : a = s.pushAddress.toNat := by
      by_contra ha
      exact hne (Memory.readByte_writeByte_ne _ _ ha)
    rw [ha, State.pushAddress_toNat hsp]
  rcases exec_cases h with ⟨k, rfl⟩ | hc
  · exact absurd rfl hne
  cases hc with
  | pushes v hsp => exact ⟨by simp [Instr.op], atPushAddress hsp hne⟩
  | calls r v hr hsp => exact ⟨by simp [Instr.op], atPushAddress hsp hne⟩
  | _ => exact absurd rfl hne

/-- Settles O43: a taken fault keeps sp, and among the completions four kinds move it. -/
theorem onlyStackInstructionsMoveSp : Obligations.OnlyStackInstructionsMoveSp := by
  intro i s t h hne
  rcases exec_cases h with ⟨k, rfl⟩ | hc
  · exact absurd rfl hne
  cases hc with
  | pushes v hsp => exact .inl ⟨by simp [Instr.op], State.pushAddress_toNat hsp⟩
  | calls r v hr hsp => exact .inl ⟨by simp [Instr.op], State.pushAddress_toNat hsp⟩
  | pops r v hr hsp => exact .inr ⟨by simp [Instr.op], toNat_ofNat_byte (by omega)⟩
  | returns hsp => exact .inr ⟨by simp [Instr.op], toNat_ofNat_byte (by omega)⟩
  | _ => exact absurd rfl hne

/-- Settles O45: neither a taken fault nor HLT leaves the machine running; every other completion says where pc goes. -/
theorem programCounterAdvancesOrTransfers : Obligations.ProgramCounterAdvancesOrTransfers := by
  intro i s t h hs ht
  rcases exec_cases h with ⟨k, rfl⟩ | hc
  · cases ht
  cases hc with
  | halts => cases ht
  | outputs r hn => exact .inl (toNat_ofNat_byte (by omega))
  | writesRegister r v hi hr hn =>
    have hlength : ∀ op ∈ [Op.ldi, .mul, .add], op.format.length = 3 := by decide
    rw [hlength _ hi]
    exact .inl (toNat_ofNat_byte (by omega))
  | compares f hn => exact .inl (toNat_ofNat_byte (by omega))
  | pushes v hsp hn => exact .inl (toNat_ofNat_byte (by omega))
  | calls r v hr hsp => exact .inr (.inl ⟨by simp [Instr.op], r, congrArg ([·]) hr, rfl⟩)
  | pops r v hr hsp hn => exact .inl (toNat_ofNat_byte (by omega))
  | returns hsp => exact .inr (.inr ⟨rfl, rfl⟩)
  | jumps r hi hr => exact .inr (.inl ⟨List.mem_cons_of_mem _ hi, r, hr, rfl⟩)
  | fallsThrough hi hn =>
    have hlength : ∀ op ∈ [Op.jeq, .jne], op.format.length = 2 := by decide
    rw [hlength _ hi]
    exact .inl (toNat_ofNat_byte (by omega))

end Sys2Proof.Machine
end

section
/-! PROOFS. The step: which instruction it runs, which fault it takes, and what every step keeps (spec 30_encoding.md R59, R62,
R63; 60_exceptions.md R92, R93). -/

namespace Sys2Proof.Machine

/-! ### The step of a running machine -/

theorem step_of_fetchDecode_ok {s : State} {i : Instr} (hs : s.status = .running) (h : s.fetchDecode = .ok i) :
    step s = exec i s := by
  simp [step, hs, h]

theorem step_of_fetchDecode_error {s : State} {k : Trap} (hs : s.status = .running) (h : s.fetchDecode = .error k) :
    step s = .next (s.takeFault k) := by
  simp [step, hs, h]

theorem State.fetchDecode_eq_ok_of_instrAtPc {s : State} {i : Instr} (hpc : s.pc.toNat ≤ 253) (h : s.instrAtPc = .ok i) :
    s.fetchDecode = .ok i := by
  unfold State.instrAtPc State.opcodeAtPc at h
  simp [State.fetchDecode, s.fetch_ok hpc, h]

/-- The only error of the decoder on three bytes is that of the opcode; the step raises UnknownInstruction for it (R59). -/
theorem State.fetchDecode_eq_error_of_instrAtPc {s : State} {e : DecodeError} (hpc : s.pc.toNat ≤ 253)
    (h : s.instrAtPc = .error e) : s.fetchDecode = .error (.unknownInstruction s.opcodeAtPc) := by
  unfold State.instrAtPc State.opcodeAtPc at h
  simp [State.fetchDecode, State.opcodeAtPc, s.fetch_ok hpc, h]

theorem State.fetchDecode_eq_error_of_pc {s : State} (hpc : 254 ≤ s.pc.toNat) :
    s.fetchDecode = .error (.outOfBounds .memory 256) := by
  simp [State.fetchDecode, s.fetch_error hpc]

/-- Settles O15: the fetch latches these three bytes, and the step runs what they decode to. -/
theorem stepRunsTheDecodedInstruction : Obligations.StepRunsTheDecodedInstruction :=
  fun _ _ hs hpc h => step_of_fetchDecode_ok hs (State.fetchDecode_eq_ok_of_instrAtPc hpc h)

/-- Settles O17: the fetch raises before anything is decoded. -/
theorem eagerFetchPastTheTopRaises : Obligations.EagerFetchPastTheTopRaises :=
  fun _ hs hpc => step_of_fetchDecode_error hs (State.fetchDecode_eq_error_of_pc hpc)

/-- A legal map has thirteen distinct bytes (R56), so it leaves 243 of the 256 bytes illegal. -/
theorem length_illegalOpcodes {m : OpcodeMap} (hm : m.wellFormed = true) :
    ((List.range 256).filter fun n => (decodeOpcode m (BitVec.ofNat 8 n)).isNone).length = 243 := by
  have hlegal : ((List.range 256).filter fun n => !(decodeOpcode m (BitVec.ofNat 8 n)).isNone).Perm
      (Op.all.map fun op => (m.byte op).toNat) := by
    have hinjective : Function.Injective fun op => (m.byte op).toNat :=
      fun _ _ h => OpcodeMap.byte_injective hm (BitVec.eq_of_toNat_eq h)
    refine (List.perm_ext_iff_of_nodup (List.nodup_range.filter _) (List.Nodup.map hinjective (by decide))).mpr fun n => ?_
    simp only [List.mem_filter, List.mem_range, Bool.not_eq_true', Option.isNone_eq_false_iff, Option.isSome_iff_exists,
      decodeOpcode_eq_some_iff hm, List.mem_map, Op.mem_all, true_and]
    constructor
    · rintro ⟨hn, op, hop⟩
      exact ⟨op, by rw [hop, toNat_ofNat_byte hn]⟩
    · rintro ⟨op, rfl⟩
      exact ⟨(m.byte op).isLt, op, by simp⟩
  have hsplit := (List.range 256).length_eq_length_filter_add fun n => (decodeOpcode m (BitVec.ofNat 8 n)).isNone
  rw [hlegal.length_eq, List.length_range] at hsplit
  have hops : (Op.all.map fun op => (m.byte op).toNat).length = 13 := rfl
  omega

/-- Settles O16: a byte in no entry is decoded to nothing; the default map is legal, and 0x00 is in none of its entries. -/
theorem illegalOpcodeRaisesUnknownInstruction : Obligations.IllegalOpcodeRaisesUnknownInstruction := by
  refine ⟨fun s hs hpc hillegal => ?_, length_illegalOpcodes (by decide), by decide⟩
  have hnone : decodeOpcode s.cfg.opcodes s.opcodeAtPc = none := decodeOpcode_eq_none_iff.mpr hillegal
  have hinstr : s.instrAtPc = .error (.unknownInstruction s.opcodeAtPc) := by simp [State.instrAtPc, decode, hnone]
  exact step_of_fetchDecode_error hs (State.fetchDecode_eq_error_of_instrAtPc hpc hinstr)

/-- The three bytes of a word lie at pc, where the next fetch reads them. -/
theorem State.instrAtPc_withFetchWord {s : State} (nbits w : Nat) (hpc : s.pc.toNat ≤ 253) :
    (s.withFetchWord nbits w).instrAtPc = decodeBytes s.cfg.opcodes (tableWordBytes nbits w) := by
  have hread (k : Nat) (hk : k < 3) :
      (s.withFetchWord nbits w).mem.readByte (s.pc.toNat + k) = (tableWordBytes nbits w).getD k 0 := by
    have hin : s.pc.toNat ≤ s.pc.toNat + k ∧ s.pc.toNat + k < s.pc.toNat + (tableWordBytes nbits w).length :=
      ⟨Nat.le_add_right _ _, Nat.add_lt_add_left hk _⟩
    rw [State.withFetchWord, Memory.readByte_place _ _ _ _ (by omega), if_pos hin, Nat.add_sub_cancel_left]
  have h0 := hread 0 (by decide)
  have h1 := hread 1 (by decide)
  have h2 := hread 2 (by decide)
  exact congr (congrArg₂ (decode s.cfg.opcodes) h0 h1) h2

/-- Settles O14: the laid word is fetched and decoded as the decoder reads it. -/
theorem fetchWordIsRunByTheNextStep : Obligations.FetchWordIsRunByTheNextStep := by
  intro s nbits w i hs hpc hmap hword
  have hdecode : decodeBytes OpcodeMap.ls8 (tableWordBytes nbits w) = .ok i := by
    unfold decodeTableWord at hword
    cases hd : decodeBytes OpcodeMap.ls8 (tableWordBytes nbits w) with
    | error e => simp [hd, Except.toOption] at hword
    | ok j => simpa [hd, Except.toOption] using hword
  have hinstr : (s.withFetchWord nbits w).instrAtPc = .ok i := by
    rw [State.instrAtPc_withFetchWord nbits w hpc, hmap, hdecode]
  exact step_of_fetchDecode_ok hs (State.fetchDecode_eq_ok_of_instrAtPc hpc hinstr)

/-! ### A step answers a next state -/

theorem State.exists_conclude (s : State) (r : Except Trap State) : ∃ t, s.conclude r = .next t := by
  cases r with
  | ok t => exact ⟨t, rfl⟩
  | error k => exact ⟨_, rfl⟩

theorem exists_exec (i : Instr) (s : State) : ∃ t, exec i s = .next t := by
  cases i with
  | hlt => exact ⟨_, rfl⟩
  | _ => exact s.exists_conclude _

theorem exists_step {s : State} (hs : s.status = .running) : ∃ t, step s = .next t := by
  cases h : s.fetchDecode with
  | ok i => rw [step_of_fetchDecode_ok hs h]; exact exists_exec i s
  | error k => exact ⟨_, step_of_fetchDecode_error hs h⟩

theorem step_ne_refused (s : State) (r : Refusal) : step s ≠ .refused r := by
  intro h
  cases hs : s.status with
  | running =>
    obtain ⟨t, ht⟩ := exists_step hs
    cases ht.symm.trans h
  | halted => simp [step, hs] at h
  | faulted f => simp [step, hs] at h

/-- Settles O18: a running machine's step answers, and the steps that answer are those of a running machine. -/
theorem stepExistsExactlyWhileRunning : Obligations.StepExistsExactlyWhileRunning :=
  fun s => ⟨⟨fun ⟨_, h⟩ => (step_cases h).1, exists_step⟩, step_ne_refused s⟩

/-! ### Every step takes a fault or completes an instruction -/

/-- What every step can do: take a fault from the state it began in, or complete the instruction it fetched. -/
theorem step_fault_or_completes {s t : State} (h : step s = .next t) :
    s.status = .running ∧ (FaultFrom s t ∨ ∃ i, s.fetchDecode = .ok i ∧ Completes s i t) := by
  obtain ⟨hs, ⟨k, -, ht⟩ | ⟨i, hi, hexec⟩⟩ := step_cases h
  · exact ⟨hs, .inl ⟨k, ht⟩⟩
  · exact ⟨hs, (exec_cases hexec).imp_right fun hc => ⟨i, hi, hc⟩⟩

theorem Completes.status {s t : State} {i : Instr} (h : Completes s i t) :
    (i = .hlt ∧ t.status = .halted) ∨ t.status = s.status := by
  cases h with
  | halts => exact .inl ⟨rfl, rfl⟩
  | _ => exact .inr rfl

theorem Completes.cfg {s t : State} {i : Instr} (h : Completes s i t) : t.cfg = s.cfg := by cases h <;> rfl

/-- A completed instruction keeps the canonical form: it writes no cell, or one whose address is a byte. -/
theorem Completes.mem_wf {s t : State} {i : Instr} (h : Completes s i t) (hm : s.mem.wf) : t.mem.wf := by
  cases h with
  | pushes v => exact Memory.wf_writeByte v s.pushAddress.isLt hm
  | calls r v => exact Memory.wf_writeByte v s.pushAddress.isLt hm
  | _ => exact hm

/-- Settles O21: a completed instruction leaves the status RUNNING or HALTED, so the state is one a fault was taken to. -/
theorem faultChangesNothingButStatus : Obligations.FaultChangesNothingButStatus := by
  intro s t f h ht
  obtain ⟨hs, ⟨k, rfl⟩ | ⟨i, -, hc⟩⟩ := step_fault_or_completes h
  · cases ht
    exact ⟨rfl, rfl⟩
  · rcases hc.status with ⟨-, hhalted⟩ | hkept
    · cases ht.symm.trans hhalted
    · cases (ht.symm.trans hkept).trans hs

/-- Settles O22: only a completed HLT gives the status HALTED, and a fetched HLT cannot fault. -/
theorem onlyHltHalts : Obligations.OnlyHltHalts := by
  intro s t h
  obtain ⟨hs, hcases⟩ := step_fault_or_completes h
  constructor
  · intro ht
    rcases hcases with ⟨k, rfl⟩ | ⟨i, hi, hc⟩
    · cases ht
    · rcases hc.status with ⟨rfl, -⟩ | hkept
      · exact hi
      · cases (ht.symm.trans hkept).trans hs
  · intro hhlt
    obtain rfl : t = s.setStatus .halted := execHlt_cases ((step_of_fetchDecode_ok hs hhlt).symm.trans h)
    rfl

/-- Settles O25: neither a taken fault nor a completed instruction writes the parameters. -/
theorem stepNeverChangesTheParameters : Obligations.StepNeverChangesTheParameters := by
  intro s t h
  obtain ⟨-, ⟨k, rfl⟩ | ⟨i, -, hc⟩⟩ := step_fault_or_completes h
  · rfl
  · exact hc.cfg

/-! ### The fault of highest priority -/

/-- What the priority list has left when none of its entries applies. -/
theorem State.executionTrap_eq_none {s : State} {i : Instr} (h : s.executionTrap i = none) :
    (∀ b ∈ i.registerOperands, b.toNat < 8) ∧
    (i.op ∈ [Op.jeq, .jne] → ¬(s.fl = .unset ∧ s.cfg.unsetFlagPolicy = .fault)) ∧
    (i.op ∈ [Op.push, .call] → 0 < s.sp.toNat) ∧
    (i.op ∈ [Op.pop, .ret] → s.sp.toNat < 255) ∧
    (i.op ∈ [Op.ldi, .mul, .add, .cmp] → s.pc.toNat ≠ 253) := by
  unfold State.executionTrap at h
  split at h
  · cases h
  · next hregs =>
    split_ifs at h with hflag hpush hpop hnext
    have hlt := s.sp.isLt
    refine ⟨by simpa using hregs, fun hi hf => hflag ⟨hi, hf⟩, fun hi => ?_, fun hi => ?_, fun hi hpc => ?_⟩
    · have hne : s.sp.toNat ≠ 0 := fun hsp => hpush ⟨hi, BitVec.eq_of_toNat_eq hsp⟩
      omega
    · have hne : s.sp.toNat ≠ 255 := fun hsp => hpop ⟨hi, BitVec.eq_of_toNat_eq hsp⟩
      omega
    · exact hnext ⟨hi, BitVec.eq_of_toNat_eq hpc⟩

/-- A branch ends in a change of pc, whichever way it goes. -/
theorem State.exists_branch {s : State} (r : Fin 8) (taken : Bool) (hpc : s.pc.toNat ≤ 253) :
    ∃ p, s.branch r taken = .ok (s.setPc p) := by
  cases taken with
  | true => exact ⟨_, s.branch_taken r⟩
  | false => exact ⟨_, State.branch_not_taken r hpc⟩

theorem State.exists_flagIsEqual {s : State} (h : ¬(s.fl = .unset ∧ s.cfg.unsetFlagPolicy = .fault)) :
    ∃ eq, s.flagIsEqual = .ok eq := ⟨_, if_neg h⟩

/-- Where no entry of the priority list applies, the instruction completes. -/
theorem exec_of_executionTrap_eq_none {i : Instr} {s : State} (hpc : s.pc.toNat ≤ 253) (h : s.executionTrap i = none) :
    ∃ t, exec i s = .next t ∧ (t.status = s.status ∨ t.status = .halted) := by
  obtain ⟨hregs, hflag, hpush, hpop, hnext⟩ := State.executionTrap_eq_none h
  cases i with
  | hlt => exact ⟨_, rfl, .inr rfl⟩
  | ldi =>
    have hne := hnext (by simp [Instr.op])
    exact ⟨_, execLdi_ok _ (hregs _ List.mem_cons_self) (by omega), .inl rfl⟩
  | prn => exact ⟨_, execPrn_ok (hregs _ List.mem_cons_self) hpc, .inl rfl⟩
  | mul | add | cmp =>
    have hne := hnext (by simp [Instr.op])
    exact ⟨_, State.onRegisterPair_ok _ (hregs _ List.mem_cons_self)
      (hregs _ (List.mem_cons_of_mem _ List.mem_cons_self)) (by omega), .inl rfl⟩
  | push => exact ⟨_, execPush_ok (hregs _ List.mem_cons_self) (hpush (by simp [Instr.op])) hpc, .inl rfl⟩
  | pop => exact ⟨_, execPop_ok (hregs _ List.mem_cons_self) (hpop (by simp [Instr.op])) hpc, .inl rfl⟩
  | call => exact ⟨_, execCall_ok (hregs _ List.mem_cons_self) (hpush (by simp [Instr.op])) hpc, .inl rfl⟩
  | ret => exact ⟨_, execRet_ok (hpop (by simp [Instr.op])), .inl rfl⟩
  | jmp => exact ⟨_, execJmp_ok s (hregs _ List.mem_cons_self), .inl rfl⟩
  | jeq rA =>
    have hA : rA.toNat < 8 := hregs rA List.mem_cons_self
    obtain ⟨eq, heq⟩ := State.exists_flagIsEqual (hflag (by simp [Instr.op]))
    obtain ⟨p, hp⟩ := State.exists_branch ⟨rA.toNat, hA⟩ eq hpc
    exact ⟨s.setPc p, by rw [exec, execJeq_of_flag hA heq, hp, State.conclude_ok], .inl rfl⟩
  | jne rA =>
    have hA : rA.toNat < 8 := hregs rA List.mem_cons_self
    obtain ⟨eq, heq⟩ := State.exists_flagIsEqual (hflag (by simp [Instr.op]))
    obtain ⟨p, hp⟩ := State.exists_branch ⟨rA.toNat, hA⟩ (!eq) hpc
    exact ⟨s.setPc p, by rw [exec, execJne_of_flag hA heq, hp, State.conclude_ok], .inl rfl⟩

/-- The trap that the priority list names is the one the instruction raises. -/
theorem exec_of_executionTrap_eq_some {i : Instr} {s : State} {k : Trap} (h : s.executionTrap i = some k) :
    exec i s = .next (s.takeFault k) := by
  unfold State.executionTrap at h
  split at h
  · next b hb =>
    cases h
    exact exec_register_fault s hb
  · next hb =>
    have hregs : ∀ b ∈ i.registerOperands, b.toNat < 8 := by simpa using hb
    split_ifs at h with hflag hpush hpop hnext <;> cases h
    · obtain ⟨hi, hfl, hpolicy⟩ := hflag
      cases i with
      | jeq | jne => exact State.conclude_flag_fault (hregs _ List.mem_cons_self) hfl hpolicy _
      | _ => simp [Instr.op] at hi
    · obtain ⟨hi, hsp⟩ := hpush
      cases i with
      | push | call => exact State.conclude_stack_overflow (hregs _ List.mem_cons_self) hsp _
      | _ => simp [Instr.op] at hi
    · obtain ⟨hi, hsp⟩ := hpop
      cases i with
      | pop => exact execPop_stack_underflow (hregs _ List.mem_cons_self) hsp
      | ret => exact execRet_stack_underflow hsp
      | _ => simp [Instr.op] at hi
    · obtain ⟨hi, hpc⟩ := hnext
      cases i with
      | ldi => exact execLdi_memory_fault _ (hregs _ List.mem_cons_self) hpc
      | mul | add | cmp =>
        obtain ⟨-, -, hfault⟩ := s.onRegisterPair_faults _ _ _
        exact hfault (hregs _ List.mem_cons_self) (hregs _ (List.mem_cons_of_mem _ List.mem_cons_self)) hpc
      | _ => simp [Instr.op] at hi

/-- Settles O19: the list's first two entries are the fetch's and the decoder's faults, the others the instruction's. -/
theorem stepTakesTheFirstFaultInPriorityOrder : Obligations.StepTakesTheFirstFaultInPriorityOrder := by
  intro s hs
  unfold State.firstTrap
  split_ifs with hpc
  · have hstep := step_of_fetchDecode_error hs (State.fetchDecode_eq_error_of_pc hpc)
    exact ⟨fun k hk => Option.some.inj hk ▸ hstep, fun h => by cases h⟩
  · have hpc' : s.pc.toNat ≤ 253 := by omega
    cases hinstr : s.instrAtPc with
    | error e =>
      have hstep := step_of_fetchDecode_error hs (State.fetchDecode_eq_error_of_instrAtPc hpc' hinstr)
      exact ⟨fun k hk => Option.some.inj hk ▸ hstep, fun h => by cases h⟩
    | ok i =>
      have hstep := step_of_fetchDecode_ok hs (State.fetchDecode_eq_ok_of_instrAtPc hpc' hinstr)
      refine ⟨fun k hk => hstep.trans (exec_of_executionTrap_eq_some hk), fun hnone => ?_⟩
      rw [hstep, ← hs]
      exact exec_of_executionTrap_eq_none hpc' hnone

/-! ### The invariant -/

/-- A state whose stop is a fault just taken explains it: nothing that the priority list reads has changed. -/
theorem State.stopExplained_takeFault {s : State} {k : Trap} (h : s.firstTrap = some k) : (s.takeFault k).stopExplained :=
  ⟨rfl, h⟩

/-- A fetched instruction lies below the last two addresses, and the opcode there is its operation's. -/
theorem State.opAtPc_of_fetchDecode {s : State} {i : Instr} (h : s.fetchDecode = .ok i) :
    s.pc.toNat ≤ 253 ∧ s.opAtPc = some i.op := by
  rcases s.fetchDecode_cases with ⟨-, he⟩ | ⟨hpc, j, hj, hd⟩ | ⟨-, he, -⟩
  · cases he.symm.trans h
  · obtain rfl : j = i := Except.ok.inj (hj.symm.trans h)
    obtain ⟨hop, -⟩ := decode_ok hd
    exact ⟨hpc, hop⟩
  · cases he.symm.trans h

/-- The stop that a step leaves is explained, whatever state it began in. -/
theorem stopExplained_of_step {s t : State} (h : step s = .next t) : t.stopExplained := by
  obtain ⟨hs, hcases⟩ := step_fault_or_completes h
  obtain ⟨hfault, hcomplete⟩ := stepTakesTheFirstFaultInPriorityOrder s hs
  cases htrap : s.firstTrap with
  | some k =>
    obtain rfl : s.takeFault k = t := Host.Outcome.next.inj ((hfault k htrap).symm.trans h)
    exact State.stopExplained_takeFault htrap
  | none =>
    obtain ⟨t', ht', hstatus⟩ := hcomplete htrap
    obtain rfl : t' = t := Host.Outcome.next.inj (ht'.symm.trans h)
    rcases hstatus with hrunning | hhalted
    · simp [State.stopExplained, hrunning]
    · have hhlt := (onlyHltHalts s t' h).mp hhalted
      obtain rfl : t' = s.setStatus .halted := execHlt_cases ((step_of_fetchDecode_ok hs hhlt).symm.trans h)
      exact State.opAtPc_of_fetchDecode hhlt

/-- Settles O24: a step keeps canonical memory and the parameters, and explains its own stop. -/
theorem stepKeepsTheInvariant : Obligations.StepKeepsTheInvariant := by
  rintro s t ⟨hmem, hparams, -⟩ h
  refine ⟨?_, stepNeverChangesTheParameters s t h ▸ hparams, stopExplained_of_step h⟩
  obtain ⟨-, ⟨k, rfl⟩ | ⟨i, -, hc⟩⟩ := step_fault_or_completes h
  · exact hmem
  · exact hc.mem_wf hmem

/-- Settles O23: no cell is listed at reset, the parameters are legal by assumption, and the machine has not stopped. -/
theorem resetMeetsTheInvariant : Obligations.ResetMeetsTheInvariant := by
  have resetWith_inv (c : Config) (hc : c.wellFormed = true) : (State.resetWith c).Inv := ⟨Memory.wf_nil, hc, trivial⟩
  exact ⟨resetWith_inv Config.default (by decide), resetWith_inv⟩

/-! ### Runs -/

theorem stepMany_succ_of_next {s t : State} (h : step s = .next t) (k : Nat) : stepMany (k + 1) s = stepMany k t := by
  simp [stepMany, h]

/-- A run of one more step is the run with a step behind it. -/
theorem stepMany_succ {k : Nat} {s u : State} :
    stepMany (k + 1) s = some u ↔ ∃ t, stepMany k s = some t ∧ step t = .next u := by
  induction k generalizing s with
  | zero => cases h : step s <;> simp [stepMany, h]
  | succ k ih =>
    cases h : step s with
    | next t =>
      rw [stepMany_succ_of_next h, stepMany_succ_of_next h]
      exact ih
    | fault | refused => simp [stepMany, h]

/-- A running state's step leads to FAULTED exactly if some entry of the priority list applies. -/
theorem isFaulted_step {t u : State} (h : step t = .next u) : u.isFaulted = false ↔ t.firstTrap = none := by
  obtain ⟨hfault, hcomplete⟩ := stepTakesTheFirstFaultInPriorityOrder t (step_cases h).1
  cases htrap : t.firstTrap with
  | some k =>
    obtain rfl : t.takeFault k = u := Host.Outcome.next.inj ((hfault k htrap).symm.trans h)
    simp [State.isFaulted]
  | none =>
    obtain ⟨u', hu', hstatus⟩ := hcomplete htrap
    obtain rfl : u' = u := Host.Outcome.next.inj (hu'.symm.trans h)
    rcases hstatus with hst | hst <;> simp [State.isFaulted, hst]

/-- Settles O20: the states of a run behind its first are those a running state of the run steps to. -/
theorem safeRunsAreThoseWithoutAFirstFault : Obligations.SafeRunsAreThoseWithoutAFirstFault := by
  intro n s hs
  constructor
  · intro hsafe k hk t ht hrunning
    obtain ⟨u, hu⟩ := exists_step hrunning
    exact (isFaulted_step hu).mp (hsafe (k + 1) hk u (stepMany_succ.mpr ⟨t, ht, hu⟩))
  · intro hnone k hk u hu
    cases k with
    | zero => cases hu; exact hs
    | succ k =>
      obtain ⟨t, ht, hstep⟩ := stepMany_succ.mp hu
      exact (isFaulted_step hstep).mpr (hnone k hk t ht (step_cases hstep).1)

/-- A machine whose step gives the state back never leaves it. -/
theorem run_of_step_eq_self {M : Host.Core} {s : M.State} (h : M.step s = .next s) (n : Nat) : M.run n s = .next s := by
  induction n with
  | zero => rfl
  | succ n ih => rw [Host.Core.run, h]; exact ih

/-- Settles O49: the jump sets pc to what it holds, so the step gives the state back. -/
theorem jumpToItselfNeverEnds : Obligations.JumpToItselfNeverEnds := by
  intro rA s hA hs hfetch hself
  have hstep : step s = .next (s.setPc s.x[rA.toNat]) := (step_of_fetchDecode_ok hs hfetch).trans (execJmp_ok s hA)
  rw [hself] at hstep
  exact run_of_step_eq_self (M := core) hstep

/-! ### Writes and later fetches -/

/-- A fetch anywhere behind a push latches the pushed byte where it meets it, and the old bytes elsewhere. -/
theorem State.fetch_pushed (s : State) (v p q : Byte) (hq : q.toNat ≤ 253) :
    ((s.pushed v p).setPc q).fetch = .ok (s.latchesAfterWrite s.pushAddress v q) :=
  State.fetch_of_writeByte rfl hq

/-- Settles O48: the step is the fetched PUSH or CALL, which completes in the pushed state. -/
theorem writtenByteIsSeenByLaterFetches : Obligations.WrittenByteIsSeenByLaterFetches := by
  intro rA s hs hA hsp hpc
  have hpc2 : (BitVec.ofNat 8 (s.pc.toNat + 2)).toNat = s.pc.toNat + 2 := toNat_ofNat_byte (by omega)
  constructor
  · intro hfetch
    have hstep := step_of_fetchDecode_ok hs hfetch
    exact ⟨_, hstep.trans (execPush_ok hA hsp hpc), hstep, hs, hpc2, State.pushAddress_toNat hsp,
      Memory.readByte_writeByte_self _ _ _, s.fetch_pushed _ _⟩
  · intro hfetch
    have hstep := step_of_fetchDecode_ok hs hfetch
    refine ⟨_, hstep.trans (execCall_ok hA hsp hpc), hstep, hs, rfl, State.pushAddress_toNat hsp, ?_, s.fetch_pushed _ _⟩
    rw [State.pushed_mem, State.pushed_sp, Memory.readByte_writeByte_self, hpc2]

end Sys2Proof.Machine
end

section
/-! PROOFS. The reset table and the exit status (spec 70_reset_and_hazards.md section 1; 60_exceptions.md R98). -/

namespace Sys2Proof.Machine

/-- Settles O2: the fields of the reset state, read off. -/
theorem resetLeavesTheTabulatedState : Obligations.ResetLeavesTheTabulatedState :=
  ⟨fun _ => ⟨fun _ => rfl, rfl, rfl, rfl, rfl, rfl, rfl⟩, rfl, rfl, rfl⟩

theorem State.exitStatus_running {s : State} (h : s.status = .running) : s.exitStatus = none := by
  simp [State.exitStatus, h]

theorem State.exitStatus_halted {s : State} (h : s.status = .halted) : s.exitStatus = some s.cfg.haltExitStatus := by
  simp [State.exitStatus, h]

theorem State.exitStatus_faulted {s : State} {f : FaultRecord} (h : s.status = .faulted f) :
    s.exitStatus = some s.cfg.faultExitStatus := by
  simp [State.exitStatus, h]

theorem faultExitStatus_ne_zero {c : Config} (h : c.wellFormed = true) : c.faultExitStatus ≠ 0 := by
  obtain ⟨-, hstatus⟩ := Bool.and_eq_true_iff.mp h
  simpa using hstatus

/-- Settles O4: each status has its exit status, and legal parameters rule 0 out for a fault. -/
theorem exitStatusFollowsRunStatus : Obligations.ExitStatusFollowsRunStatus := by
  refine ⟨fun s => ⟨State.exitStatus_running, State.exitStatus_halted, fun _ => State.exitStatus_faulted,
    fun _ hs hc => ?_⟩, rfl, rfl⟩
  rw [State.exitStatus_faulted hs]
  exact fun h => faultExitStatus_ne_zero hc (Option.some.inj h)

end Sys2Proof.Machine
end

section
/-! PROOFS. The text image format (spec 30_encoding.md R68). -/

namespace Sys2Proof.Machine

/-! ### What is left of a line -/

theorem dropWhile_eq_self_of_forall_not {p : Char → Bool} {cs : List Char} (h : ∀ c ∈ cs, ¬p c = true) :
    cs.dropWhile p = cs :=
  List.dropWhile_eq_self_iff.mpr fun hcs => h _ (List.getElem_mem hcs)

/-- White space around a text without white space is what trimming takes off. -/
theorem trim_eq {before body behind : List Char} (hbefore : ∀ c ∈ before, c.isWhitespace = true)
    (hbehind : ∀ c ∈ behind, c.isWhitespace = true) (hbody : ∀ c ∈ body, ¬c.isWhitespace = true) :
    (((before ++ body ++ behind).dropWhile Char.isWhitespace).reverse.dropWhile Char.isWhitespace).reverse = body := by
  have hfront : (body ++ behind).dropWhile Char.isWhitespace = body ++ if body = [] then [] else behind := by
    rw [List.dropWhile_append, dropWhile_eq_self_of_forall_not hbody]
    by_cases hb : body = []
    · simpa [hb] using hbehind
    · simp [hb]
  have hrest : ∀ c ∈ (if body = [] then [] else behind).reverse, c.isWhitespace = true := by
    intro c hc
    split_ifs at hc
    · cases hc
    · exact hbehind c (List.mem_reverse.mp hc)
  rw [List.append_assoc, List.dropWhile_append_of_pos hbefore, hfront, List.reverse_append,
    List.dropWhile_append_of_pos hrest, dropWhile_eq_self_of_forall_not (by simpa using hbody), List.reverse_reverse]

/-- A comment ends the line's text. -/
theorem takeWhile_before_comment {cs comment : List Char} (hcs : ∀ c ∈ cs, c ≠ '#')
    (hcomment : comment = [] ∨ ∃ rest, comment = '#' :: rest) :
    (cs ++ comment).takeWhile (fun c => c != '#') = cs := by
  rw [List.takeWhile_append_of_pos (by simpa using hcs)]
  rcases hcomment with rfl | ⟨rest, rfl⟩ <;> simp

theorem ne_hash_of_isWhitespace {c : Char} (h : c.isWhitespace = true) : c ≠ '#' := by
  rintro rfl
  exact absurd h (by decide)

/-- What is left of a line is the text between white space, before any comment. -/
theorem lineText_eq {before body behind comment : List Char} (hbefore : ∀ c ∈ before, c.isWhitespace = true)
    (hbody : ∀ c ∈ body, ¬c.isWhitespace = true ∧ c ≠ '#') (hbehind : ∀ c ∈ behind, c.isWhitespace = true)
    (hcomment : comment = [] ∨ ∃ rest, comment = '#' :: rest) :
    lineText (before ++ body ++ behind ++ comment) = body := by
  have hhash : ∀ c ∈ before ++ body ++ behind, c ≠ '#' := by
    intro c hc
    rcases List.mem_append.mp hc with hc | hc
    · rcases List.mem_append.mp hc with hc | hc
      · exact ne_hash_of_isWhitespace (hbefore c hc)
      · exact (hbody c hc).2
    · exact ne_hash_of_isWhitespace (hbehind c hc)
  rw [lineText, takeWhile_before_comment hhash hcomment]
  exact trim_eq hbefore hbehind fun c hc => (hbody c hc).1

theorem lineText_blank {white comment : List Char} (hwhite : ∀ c ∈ white, c.isWhitespace = true)
    (hcomment : comment = [] ∨ ∃ rest, comment = '#' :: rest) : lineText (white ++ comment) = [] := by
  simpa using lineText_eq (body := []) (behind := []) hwhite (by simp) (by simp) hcomment

/-! ### Byte lines -/

/-- The 8 binary digits of a byte, most significant first. -/
def byteDigits (b : Byte) : List Char := (List.range 8).map fun k => if b.getMsbD k then '1' else '0'

theorem byteDigits_not_white_or_hash (b : Byte) : ∀ c ∈ byteDigits b, ¬c.isWhitespace = true ∧ c ≠ '#' := by
  intro c hc
  obtain ⟨k, -, rfl⟩ := List.mem_map.mp hc
  split <;> decide

theorem binaryValue_digit (d : Bool) (cs : List Char) (n : Nat) :
    binaryValue ((if d then '1' else '0') :: cs) n = binaryValue cs (2 * n + d.toNat) := by
  cases d <;> simp [binaryValue]

/-- The bits of a byte down to bit `j` are those down to bit `j + 1`, and bit `j`. -/
theorem two_mul_div_add_testBit (n j : Nat) : 2 * (n / 2 ^ (j + 1)) + (n.testBit j).toNat = n / 2 ^ j := by
  rw [Nat.toNat_testBit, Nat.pow_succ, ← Nat.div_div_eq_div_mul, Nat.div_add_mod]

/-- The first `k` digits of a byte have the value of its high `k` bits. -/
theorem binaryValue_firstDigits (b : Byte) {k : Nat} (hk : k ≤ 8) (cs : List Char) :
    binaryValue ((List.range k).map (fun k => if b.getMsbD k then '1' else '0') ++ cs) 0 =
      binaryValue cs (b.toNat / 2 ^ (8 - k)) := by
  induction k generalizing cs with
  | zero => simp [Nat.div_eq_of_lt b.isLt]
  | succ k ih =>
    obtain ⟨j, hj⟩ : ∃ j, 8 - k = j + 1 := ⟨7 - k, by omega⟩
    have hbit : b.getMsbD k = b.toNat.testBit j := by
      have hlt : k < 8 := hk
      have hidx : 8 - 1 - k = j := by omega
      rw [BitVec.getMsbD_eq_getLsbD, hidx, decide_eq_true hlt, Bool.true_and, BitVec.testBit_toNat]
    have hidx : 8 - (k + 1) = j := by omega
    rw [List.range_succ, List.map_append, List.append_assoc, ih (by omega), List.map_singleton, List.singleton_append,
      binaryValue_digit, hbit, hj, two_mul_div_add_testBit, hidx]

theorem binaryByte_byteDigits (b : Byte) : binaryByte (byteDigits b) = some b := by
  have hvalue := binaryValue_firstDigits b (le_refl 8) []
  rw [List.append_nil] at hvalue
  simp [binaryByte, byteDigits, hvalue, binaryValue]

/-! ### The image of a list of lines -/

theorem imageOfLines_cons_blank {l : List Char} (h : lineText l = []) (ls : List (List Char)) :
    imageOfLines (l :: ls) = imageOfLines ls := by
  simp [imageOfLines, h]

theorem imageOfLines_cons_byte {l : List Char} {b : Byte} (h : lineText l = byteDigits b) (ls : List (List Char)) :
    imageOfLines (l :: ls) = (imageOfLines ls).map (b :: ·) := by
  have hne : byteDigits b ≠ [] := by simp [byteDigits]
  rw [imageOfLines, h, if_neg hne, binaryByte_byteDigits]
  cases imageOfLines ls <;> rfl

theorem imageOfLines_append_congr {ls ls' : List (List Char)} (pre : List (List Char))
    (h : imageOfLines ls = imageOfLines ls') : imageOfLines (pre ++ ls) = imageOfLines (pre ++ ls') := by
  induction pre with
  | nil => exact h
  | cons l pre ih => simp [imageOfLines, ih]

/-- Lines that each hold a byte's digits are the image of these bytes. -/
theorem imageOfLines_mapIdx {line : Nat → Byte → List Char} (h : ∀ n b, lineText (line n b) = byteDigits b)
    (bs : List Byte) : imageOfLines (bs.mapIdx line) = some bs := by
  induction bs generalizing line with
  | nil => rfl
  | cons b bs ih => rw [List.mapIdx_cons, imageOfLines_cons_byte (h 0 b), ih fun n => h (n + 1), Option.map_some]

/-! ### The lines of a text -/

theorem textLines_of_no_newline {l : List Char} (h : '\n' ∉ l) : textLines l = [l] := by
  induction l with
  | nil => rfl
  | cons c l ih =>
    obtain ⟨hc, hl⟩ := List.ne_and_not_mem_of_not_mem_cons h
    rw [textLines, if_neg hc.symm, ih hl]

theorem textLines_append_newline {l : List Char} (h : '\n' ∉ l) (rest : List Char) :
    textLines (l ++ '\n' :: rest) = l :: textLines rest := by
  induction l with
  | nil => simp [textLines]
  | cons c l ih =>
    obtain ⟨hc, hl⟩ := List.ne_and_not_mem_of_not_mem_cons h
    rw [List.cons_append, textLines, if_neg hc.symm, ih hl]

theorem textLines_intercalate {lines : List (List Char)} (hne : lines ≠ []) (h : ∀ l ∈ lines, '\n' ∉ l) :
    textLines (List.intercalate ['\n'] lines) = lines := by
  induction lines with
  | nil => exact absurd rfl hne
  | cons l ls ih =>
    obtain ⟨hl, hls⟩ := List.forall_mem_cons.mp h
    cases ls with
    | nil => simpa using textLines_of_no_newline hl
    | cons l' ls =>
      rw [List.intercalate_cons_cons, List.append_assoc, List.singleton_append, textLines_append_newline hl,
        ih (List.cons_ne_nil _ _) hls]

/-- Settles O5: byte lines, blank lines and line feeds, each by its lemma; the example line is evaluated. -/
theorem binaryLinesGiveTheImageBytes : Obligations.BinaryLinesGiveTheImageBytes := by
  refine ⟨fun bs before behind comment hwhite hcomment => ?_, fun white comment pre post hwhite hcomment => ?_,
    fun _ => textLines_intercalate, by decide⟩
  · refine imageOfLines_mapIdx (fun n b => ?_) bs
    exact lineText_eq (fun c hc => hwhite n c (List.mem_append_left _ hc)) (byteDigits_not_white_or_hash b)
      (fun c hc => hwhite n c (List.mem_append_right _ hc)) (hcomment n)
  · exact imageOfLines_append_congr pre (imageOfLines_cons_blank (lineText_blank hwhite hcomment) post)

end Sys2Proof.Machine
end
